-- ==== Sys2Proof/Word.lean ====
section
/-! DEFINITION. The widths of the machine's values (00_scope.md R5, R6): bytes, 16-bit words, and the opcode fields. -/

namespace Sys2Proof

/-- An 8-bit value: a memory byte, a general register, a timer, an immediate `kk` (R20, R32, R75). -/
abbrev Byte := BitVec 8

/-- A 16-bit value: an opcode, `I`, `pc`, a stack entry, the keypad mask (R23, R28, R29, R35). -/
abbrev Word := BitVec 16

/-- A 12-bit address field `nnn` (R72, R75). -/
abbrev Addr := BitVec 12

/-- A 4-bit opcode field: `fam`, or the sprite height `n` (R72, R75). -/
abbrev Nibble := BitVec 4

/-- The number of a general register, 0 to 15 (R21, R76). -/
abbrev Reg := Fin 16

end Sys2Proof
end

