-- ==== Sys2Proof/Syntax.lean ====
section
/-! DEFINITION. The 35 instructions as data: one constructor per row of spec/opcode_table.json, in the table's order
(30_encoding.md R79). Field names are the spec's: `x`, `y` register numbers, `kk`, `nnn`, `n` immediates (R72, R75, R76). -/

namespace Sys2Proof

/-- An instruction of the core (30_encoding.md R79). -/
inductive Instr where
  /-- `00E0` CLS (R160). -/
  | cls
  /-- `00EE` RET (R101). -/
  | ret
  /-- `0nnn` SYS nnn, `nnn` other than 0x0E0 and 0x0EE (R100, R82). -/
  | sys (nnn : Addr)
  /-- `1nnn` JP nnn (R103). -/
  | jp (nnn : Addr)
  /-- `2nnn` CALL nnn (R102). -/
  | call (nnn : Addr)
  /-- `3xkk` SE Vx, kk (R110). -/
  | seImm (x : Reg) (kk : Byte)
  /-- `4xkk` SNE Vx, kk (R111). -/
  | sneImm (x : Reg) (kk : Byte)
  /-- `5xy0` SE Vx, Vy (R112). -/
  | seReg (x y : Reg)
  /-- `6xkk` LD Vx, kk (R120). -/
  | ldImm (x : Reg) (kk : Byte)
  /-- `7xkk` ADD Vx, kk (R121). -/
  | addImm (x : Reg) (kk : Byte)
  /-- `8xy0` LD Vx, Vy (R122). -/
  | ldReg (x y : Reg)
  /-- `8xy1` OR Vx, Vy (R123). -/
  | orReg (x y : Reg)
  /-- `8xy2` AND Vx, Vy (R124). -/
  | andReg (x y : Reg)
  /-- `8xy3` XOR Vx, Vy (R125). -/
  | xorReg (x y : Reg)
  /-- `8xy4` ADD Vx, Vy (R126). -/
  | addReg (x y : Reg)
  /-- `8xy5` SUB Vx, Vy (R127). -/
  | subReg (x y : Reg)
  /-- `8xy6` SHR Vx (R128); `y` is decoded and not used (R77). -/
  | shr (x y : Reg)
  /-- `8xy7` SUBN Vx, Vy (R129). -/
  | subnReg (x y : Reg)
  /-- `8xyE` SHL Vx (R130); `y` is decoded and not used (R77). -/
  | shl (x y : Reg)
  /-- `9xy0` SNE Vx, Vy (R113). -/
  | sneReg (x y : Reg)
  /-- `Annn` LD I, nnn (R140). -/
  | ldI (nnn : Addr)
  /-- `Bnnn` JP V0, nnn (R104). -/
  | jpV0 (nnn : Addr)
  /-- `Cxkk` RND Vx, kk (R154). -/
  | rnd (x : Reg) (kk : Byte)
  /-- `Dxyn` DRW Vx, Vy, n (R161). -/
  | drw (x y : Reg) (n : Nibble)
  /-- `Ex9E` SKP Vx (R114). -/
  | skp (x : Reg)
  /-- `ExA1` SKNP Vx (R115). -/
  | sknp (x : Reg)
  /-- `Fx07` LD Vx, DT (R150). -/
  | ldVxDT (x : Reg)
  /-- `Fx0A` LD Vx, K (R151). -/
  | ldVxK (x : Reg)
  /-- `Fx15` LD DT, Vx (R152). -/
  | ldDTVx (x : Reg)
  /-- `Fx18` LD ST, Vx (R153). -/
  | ldSTVx (x : Reg)
  /-- `Fx1E` ADD I, Vx (R141). -/
  | addI (x : Reg)
  /-- `Fx29` LD F, Vx (R142). -/
  | ldF (x : Reg)
  /-- `Fx33` LD B, Vx (R143). -/
  | ldB (x : Reg)
  /-- `Fx55` LD [I], Vx (R144). -/
  | ldMemVx (x : Reg)
  /-- `Fx65` LD Vx, [I] (R145). -/
  | ldVxMem (x : Reg)
  deriving DecidableEq, Repr

end Sys2Proof
end

