-- ==== Sys2Proof/Decode.lean ====
section
/-! DEFINITION. From bits to instructions and back (30_encoding.md R70 to R84): the fields, the decoder of R78, total and
rejecting by name, and the encoder written from the patterns of R79. -/

namespace Sys2Proof

/-- Why bits are no instruction: the names under which the decoder rejects them (R81). Each is a `DecodeError` of the
step but `truncated`, which is a list of fewer than two bytes and never reached by a fetch. -/
inductive Reject where
  /-- Fewer than the two bytes of an instruction (R70). -/
  | truncated
  /-- `5xyN` with N other than 0. -/
  | noSuchSub5
  /-- `8xyN` with N in 8, 9, A, B, C, D, F. -/
  | noSuchSub8
  /-- `9xyN` with N other than 0. -/
  | noSuchSub9
  /-- `Exkk` with kk other than 9E, A1. -/
  | noSuchSubE
  /-- `Fxkk` with kk none of 07, 0A, 15, 18, 1E, 29, 33, 55, 65. -/
  | noSuchSubF
  deriving DecidableEq, Repr

/-! ## The fields of an opcode (R7, R72) -/

/-- `fam = op[15:12]`. -/
def opFam (op : Word) : Nibble := op.extractLsb' 12 4

/-- `x = op[11:8]`, a register number. -/
def opX (op : Word) : Reg := (op.extractLsb' 8 4).toFin

/-- `y = op[7:4]`, a register number. -/
def opY (op : Word) : Reg := (op.extractLsb' 4 4).toFin

/-- `n = op[3:0]`. -/
def opN (op : Word) : Nibble := op.extractLsb' 0 4

/-- `kk = op[7:0]`. -/
def opKK (op : Word) : Byte := op.extractLsb' 0 8

/-- `nnn = op[11:0]`. -/
def opNNN (op : Word) : Addr := op.extractLsb' 0 12

/-! ## The decoder (R78) -/

/-- Family 0: CLS and RET are matched on all 16 bits and tried before SYS (R79, R82). -/
def decode0 (op : Word) : Instr :=
  if op = 0x00E0#16 then .cls
  else if op = 0x00EE#16 then .ret
  else .sys (opNNN op)

/-- Family 8: the low nibble selects (R78, R81). -/
def decode8 (op : Word) : Except Reject Instr :=
  match opN op with
  | 0x0#4 => .ok (.ldReg (opX op) (opY op))
  | 0x1#4 => .ok (.orReg (opX op) (opY op))
  | 0x2#4 => .ok (.andReg (opX op) (opY op))
  | 0x3#4 => .ok (.xorReg (opX op) (opY op))
  | 0x4#4 => .ok (.addReg (opX op) (opY op))
  | 0x5#4 => .ok (.subReg (opX op) (opY op))
  | 0x6#4 => .ok (.shr (opX op) (opY op))
  | 0x7#4 => .ok (.subnReg (opX op) (opY op))
  | 0xE#4 => .ok (.shl (opX op) (opY op))
  | _ => .error .noSuchSub8

/-- Family E: the low byte selects (R78, R81). -/
def decodeE (op : Word) : Except Reject Instr :=
  match opKK op with
  | 0x9E#8 => .ok (.skp (opX op))
  | 0xA1#8 => .ok (.sknp (opX op))
  | _ => .error .noSuchSubE

/-- Family F: the low byte selects (R78, R81). -/
def decodeF (op : Word) : Except Reject Instr :=
  match opKK op with
  | 0x07#8 => .ok (.ldVxDT (opX op))
  | 0x0A#8 => .ok (.ldVxK (opX op))
  | 0x15#8 => .ok (.ldDTVx (opX op))
  | 0x18#8 => .ok (.ldSTVx (opX op))
  | 0x1E#8 => .ok (.addI (opX op))
  | 0x29#8 => .ok (.ldF (opX op))
  | 0x33#8 => .ok (.ldB (opX op))
  | 0x55#8 => .ok (.ldMemVx (opX op))
  | 0x65#8 => .ok (.ldVxMem (opX op))
  | _ => .error .noSuchSubF

/-- The decoder: select on `fam`, within the family on the sub-opcode; a pure function of the 16 bits (R73, R78). The
last arm is family F, the one value of four bits not named before it. -/
def decode (op : Word) : Except Reject Instr :=
  match opFam op with
  | 0x0#4 => .ok (decode0 op)
  | 0x1#4 => .ok (.jp (opNNN op))
  | 0x2#4 => .ok (.call (opNNN op))
  | 0x3#4 => .ok (.seImm (opX op) (opKK op))
  | 0x4#4 => .ok (.sneImm (opX op) (opKK op))
  | 0x5#4 => if opN op = 0x0#4 then .ok (.seReg (opX op) (opY op)) else .error .noSuchSub5
  | 0x6#4 => .ok (.ldImm (opX op) (opKK op))
  | 0x7#4 => .ok (.addImm (opX op) (opKK op))
  | 0x8#4 => decode8 op
  | 0x9#4 => if opN op = 0x0#4 then .ok (.sneReg (opX op) (opY op)) else .error .noSuchSub9
  | 0xA#4 => .ok (.ldI (opNNN op))
  | 0xB#4 => .ok (.jpV0 (opNNN op))
  | 0xC#4 => .ok (.rnd (opX op) (opKK op))
  | 0xD#4 => .ok (.drw (opX op) (opY op) (opN op))
  | 0xE#4 => decodeE op
  | _ => decodeF op

/-- The opcode in two bytes of memory, the byte at the lower address in bits 15 to 8 (20_memory.md R50). -/
def opcodeOfBytes (hi lo : Byte) : Word := hi ++ lo

/-- The decoder on a list of bytes, first byte at the lowest address: one instruction and the bytes after it (R70). -/
def decodeBytes : List Byte → Except Reject (Instr × List Byte)
  | hi :: lo :: rest =>
    match decode (opcodeOfBytes hi lo) with
    | .ok i => .ok (i, rest)
    | .error r => .error r
  | _ => .error .truncated

/-! ## The encoder, from the patterns of R79 -/

/-- A register number as its four bits. -/
def regBits (r : Reg) : Nibble := BitVec.ofFin r

/-- Format NNN (R71). -/
def encNNN (fam : Nibble) (nnn : Addr) : Word := fam ++ nnn

/-- Format XKK (R71). -/
def encXKK (fam : Nibble) (x : Reg) (kk : Byte) : Word := fam ++ (regBits x ++ kk : BitVec 12)

/-- Formats XY and XYN (R71): the last nibble is the sub-opcode or `n`. -/
def encXYN (fam : Nibble) (x y : Reg) (n : Nibble) : Word :=
  fam ++ (regBits x ++ (regBits y ++ n : BitVec 8) : BitVec 12)

/-- The word of an instruction (R79). -/
def encode : Instr → Word
  | .cls => 0x00E0#16
  | .ret => 0x00EE#16
  | .sys nnn => encNNN 0x0#4 nnn
  | .jp nnn => encNNN 0x1#4 nnn
  | .call nnn => encNNN 0x2#4 nnn
  | .seImm x kk => encXKK 0x3#4 x kk
  | .sneImm x kk => encXKK 0x4#4 x kk
  | .seReg x y => encXYN 0x5#4 x y 0x0#4
  | .ldImm x kk => encXKK 0x6#4 x kk
  | .addImm x kk => encXKK 0x7#4 x kk
  | .ldReg x y => encXYN 0x8#4 x y 0x0#4
  | .orReg x y => encXYN 0x8#4 x y 0x1#4
  | .andReg x y => encXYN 0x8#4 x y 0x2#4
  | .xorReg x y => encXYN 0x8#4 x y 0x3#4
  | .addReg x y => encXYN 0x8#4 x y 0x4#4
  | .subReg x y => encXYN 0x8#4 x y 0x5#4
  | .shr x y => encXYN 0x8#4 x y 0x6#4
  | .subnReg x y => encXYN 0x8#4 x y 0x7#4
  | .shl x y => encXYN 0x8#4 x y 0xE#4
  | .sneReg x y => encXYN 0x9#4 x y 0x0#4
  | .ldI nnn => encNNN 0xA#4 nnn
  | .jpV0 nnn => encNNN 0xB#4 nnn
  | .rnd x kk => encXKK 0xC#4 x kk
  | .drw x y n => encXYN 0xD#4 x y n
  | .skp x => encXKK 0xE#4 x 0x9E#8
  | .sknp x => encXKK 0xE#4 x 0xA1#8
  | .ldVxDT x => encXKK 0xF#4 x 0x07#8
  | .ldVxK x => encXKK 0xF#4 x 0x0A#8
  | .ldDTVx x => encXKK 0xF#4 x 0x15#8
  | .ldSTVx x => encXKK 0xF#4 x 0x18#8
  | .addI x => encXKK 0xF#4 x 0x1E#8
  | .ldF x => encXKK 0xF#4 x 0x29#8
  | .ldB x => encXKK 0xF#4 x 0x33#8
  | .ldMemVx x => encXKK 0xF#4 x 0x55#8
  | .ldVxMem x => encXKK 0xF#4 x 0x65#8

/-- The high byte of a word, the one stored at the lower address (R50). -/
def hiByte (w : Word) : Byte := w.extractLsb' 8 8

/-- The low byte of a word (R50). -/
def loByte (w : Word) : Byte := w.extractLsb' 0 8

/-- The two bytes of an instruction as memory holds them. -/
def encodeBytes (i : Instr) : List Byte := [hiByte (encode i), loByte (encode i)]

/-- The word whose low `nbits` bits are those of `w`, every bit above them 0. -/
def tableWord (nbits w : Nat) : Word := BitVec.ofNat 16 (w % 2 ^ nbits)

/-- The instruction the decoder reads from a word numbered as spec/opcode_table.json numbers it (bit 0 the least
significant bit of the 16-bit opcode), laid out in memory order and decoded. -/
def decodeTableWord (nbits w : Nat) : Option Instr :=
  match decodeBytes [hiByte (tableWord nbits w), loByte (tableWord nbits w)] with
  | .ok (i, _) => some i
  | .error _ => none

end Sys2Proof
end

