-- ==== Sys2Proof/Config.lean ====
section
/-! DEFINITION. What the implementation fixes (00_scope.md R5): the sizes, the types of the parameters, and the free
value COST (the other free value, `Config.rnd`, is a function of the state and stands after it). The parameters' values are arguments of the model: they stand in `State.params` (log entry 1). -/

namespace Sys2Proof

/-- MEM_SIZE: 4096 bytes, addresses 0 to 4095 (R5, R41). -/
abbrev Config.memSize : Nat := 4096

/-- PROG_BASE: the load address and the entry point, 0x200 (R5, R23, R61). -/
abbrev Config.progBase : Nat := 512

/-- MAX_IMAGE: the largest program image, 3584 bytes (R5, R235). -/
abbrev Config.maxImage : Nat := 3584

/-- FONT_LEN: the glyph table fills addresses 0 to 79 (R5, R42). -/
abbrev Config.fontLen : Nat := 80

/-- GLYPH_STRIDE: bytes of one glyph (R5, R142). -/
abbrev Config.glyphStride : Nat := 5

/-- STACK_DEPTH: entries of the call stack (R5, R29). -/
abbrev Config.stackDepth : Nat := 16

/-- SYS_POLICY, the parameter that says what `SYS nnn` does (R5, R100). -/
inductive SysPolicy where
  /-- SYS raises DecodeError (the spec's default). -/
  | fault
  /-- SYS has no effect. -/
  | nop
  deriving DecidableEq, Repr

/-- The parameters of 00_scope.md R5 that are data: SYS_POLICY, FRAME_BUDGET (in microseconds, log entry 5) and FONT
(16 glyphs of 5 bytes, R42). -/
structure Params where
  sysPolicy   : SysPolicy
  frameBudget : Nat
  font        : Vector (Vector Byte 5) 16
  deriving DecidableEq, Repr

/-- Free value (log entry 4): COST, the duration of an executed instruction at the `k`-th free draw (R5, R176). It has no
body; the sequencer raises a zero to one, since COST is positive (R177). -/
opaque Config.cost : Instr → Nat → Nat

end Sys2Proof
end

