-- ==== Sys2Proof/Machine/Defaults.lean ====
section
/-! DEFINITION. The defaults the spec chose for the parameters (00_scope.md R5, 10_state.md R42), and the reset content
of memory they give. -/

namespace Sys2Proof.Machine

/-- The glyphs of the digits 0 to 7 (R42; the bytes are the spec's general knowledge, log entry 2). -/
def fontLow : Vector (Vector Byte 5) 8 :=
  #v[#v[0xF0, 0x90, 0x90, 0x90, 0xF0], #v[0x20, 0x60, 0x20, 0x20, 0x70],
     #v[0xF0, 0x10, 0xF0, 0x80, 0xF0], #v[0xF0, 0x10, 0xF0, 0x10, 0xF0],
     #v[0x90, 0x90, 0xF0, 0x10, 0x10], #v[0xF0, 0x80, 0xF0, 0x10, 0xF0],
     #v[0xF0, 0x80, 0xF0, 0x90, 0xF0], #v[0xF0, 0x10, 0x20, 0x40, 0x40]]

/-- The glyphs of the digits 8 to F (R42). -/
def fontHigh : Vector (Vector Byte 5) 8 :=
  #v[#v[0xF0, 0x90, 0xF0, 0x90, 0xF0], #v[0xF0, 0x90, 0xF0, 0x10, 0xF0],
     #v[0xF0, 0x90, 0xF0, 0x90, 0x90], #v[0xE0, 0x90, 0xE0, 0x90, 0xE0],
     #v[0xF0, 0x80, 0x80, 0x80, 0xF0], #v[0xE0, 0x90, 0x90, 0x90, 0xE0],
     #v[0xF0, 0x80, 0xF0, 0x80, 0xF0], #v[0xF0, 0x80, 0xF0, 0x80, 0x80]]

/-- The default of FONT: 16 glyphs of 5 bytes, one byte a row, top row first (R42). -/
def fontDefault : Vector (Vector Byte 5) 16 := fontLow ++ fontHigh

/-- The default parameters: SYS_POLICY `fault`, FRAME_BUDGET 16.666 ms in microseconds, FONT the table of R42 (R5). -/
def paramsDefault : Params :=
  { sysPolicy := .fault, frameBudget := 16666, font := fontDefault }

/-- Byte `a` of the glyph table: row `a mod 5` of glyph `a div 5` (R42); 0 past the table. -/
def fontByte (font : Vector (Vector Byte 5) 16) (a : Nat) : Byte :=
  if h : a < Config.fontLen then
    (font[a / 5]'(by simp only [Config.fontLen] at h; omega))[a % 5]'(Nat.mod_lt _ (by decide))
  else 0

/-- What an address that memory does not list reads as: the reset content under the default FONT, the glyph table at 0
to 79 and 0 everywhere else (R41, R44, R58; log entry 12). -/
def unlistedByte (a : Nat) : Byte := fontByte fontDefault a

end Sys2Proof.Machine
end

