-- ==== Sys2Proof/Machine/State.lean ====
section
/-! DEFINITION. Everything the spec gives the machine as plain data (10_state.md, 46_frame_sequencer.md), the reasons a
step can stop, and the state after reset (10_state.md R44, 70_reset_and_hazards.md R230). -/

namespace Sys2Proof.Machine

/-- The five faults of the core, in the order of their codes (60_exceptions.md R200). Raising one is an ordinary next
state with the `fault` register written (R208); it is no `Fault` of a step. -/
inductive CoreFault where
  /-- Code 1: the opcode matches no instruction (R201). -/
  | decodeError
  /-- Code 2: a span or a fetch passes the end of memory (R202). -/
  | outOfBounds
  /-- Code 3: CALL with 16 entries on the stack (R203). -/
  | stackOverflow
  /-- Code 4: RET with an empty stack (R204). -/
  | stackUnderflow
  /-- Code 5: a program image of more than 3584 bytes (R205). -/
  | imageTooLarge
  deriving DecidableEq, Repr

/-- Why a step has no next state. -/
inductive Fault where
  /-- The core is halted by the recorded fault and the host asks for nothing more: "the core has no enabled step" (R209).
  Raised by the step alone, never by an instruction's meaning. Safe. -/
  | halted (f : CoreFault)
  deriving DecidableEq, Repr

/-- What the model gives no meaning. -/
inductive Refusal where
  /-- An instruction whose meaning is not written, by the mnemonic of spec/opcode_table.json. Raised by `exec` alone; no
  arm of this model raises it. Safe. -/
  | notModelled (mnemonic : String)
  /-- A program load that is not the one load after reset: "the model gives it no step" (70_reset_and_hazards.md R238).
  Raised by the host's call, never by an instruction. Safe. -/
  | loadOutOfOrder
  /-- A frame start in a core that is not booted: "A frame may start only in a booted, unfaulted core" (R236). Raised by
  the host's call, never by an instruction. Safe. -/
  | frameBeforeLoad
  deriving DecidableEq, Repr

/-- A call of the host (46_frame_sequencer.md R170, R185). -/
inductive HostCall where
  /-- Reset, at any time (R230). -/
  | rst
  /-- The program load with its image (R235). -/
  | load (img : List Byte)
  /-- Start one frame with this keypad mask (R171, R174). -/
  | frame (keys : Word)
  /-- The host does nothing while the core takes one step (log entry 6). -/
  | wait
  deriving DecidableEq, Repr

/-- Where the sequencer stands (46_frame_sequencer.md R171, 70_reset_and_hazards.md R234; log entry 9). -/
inductive Phase where
  /-- Reset, and the program load has not been done (R234). -/
  | awaitLoad
  /-- Booted, between two frames (R236). -/
  | ready
  /-- In a frame's instruction loop, phase (a) of R171. -/
  | running
  /-- The budget of the frame is used up; phase (b) of R171 is next. -/
  | ending
  deriving DecidableEq, Repr

/-- 64 by 32 one-bit cells: one word of 64 columns a row, column `c` at bit `c` (10_state.md R43). -/
abbrev Framebuffer := Vector (BitVec 64) 32

/-- What the core presents to the host at a frame end (46_frame_sequencer.md R180, R185). -/
structure FrameOutput where
  fb    : Framebuffer
  dirty : Bool
  tone  : Bool
  delay : Byte
  sound : Byte
  deriving DecidableEq, Repr

/-- Memory: the bytes that differ from `unlistedByte`, addresses strictly rising (10_state.md R41). -/
abbrev Memory := List Host.Cell

/-- What comes from outside the core, as plain data (the model's own fields: log entries 3, 4, 6). -/
structure Env where
  /-- The host's calls still to come, the next one first. -/
  hostIn    : List HostCall
  /-- Bytes the port `rnd` presents to the next RNDs; when none is given the byte is free. -/
  rndIn     : List Byte
  /-- Durations of the next executed instructions, in microseconds; when none is given the duration is free. -/
  costIn    : List Nat
  /-- How many free durations have been drawn. -/
  costDraws : Nat
  deriving DecidableEq, Repr

/-- The state of the machine (10_state.md R20 to R44), its parameters (R45), the sequencer's phase and output, and what
comes from outside. -/
structure State where
  /-- The general registers `V[0]` to `V[15]` (R20). -/
  V      : Vector Byte 16
  /-- The index register (R28). -/
  I      : Word
  /-- The program counter (R23, R24). -/
  pc     : Word
  /-- The number of valid entries of the call stack, a 5-bit counter (R29). -/
  sp     : BitVec 5
  /-- The entries of the call stack (R29). -/
  stack  : Vector Word 16
  /-- The delay timer (R32). -/
  delay  : Byte
  /-- The sound timer (R33). -/
  sound  : Byte
  /-- The keypad latch, bit `k` for key `k` (R35). -/
  keypad : Word
  /-- The framebuffer (R43). -/
  fb     : Framebuffer
  /-- The dirty flag (R36). -/
  dirty  : Bool
  /-- The fault register (R37): none is code 0, see `faultCode`. -/
  fault  : Option CoreFault
  /-- The modelled time used in the current frame, in microseconds (R39). -/
  elapsed : Nat
  /-- The 4096 bytes of memory (R41). -/
  mem    : Memory
  /-- SYS_POLICY, FRAME_BUDGET and FONT (R5, R45); no step changes them. -/
  params : Params
  /-- Where the sequencer stands. -/
  phase  : Phase
  /-- The frame output last presented, none while a frame runs (R180, R185; log entry 10). -/
  output : Option FrameOutput
  /-- What comes from outside. -/
  env    : Env
  deriving DecidableEq, Repr

/-- The machine right after reset, before the program load (R44, R230), with the default parameters (R5). Memory lists
nothing: it is the glyph table at 0 to 79 and 0 at 80 to 4095. -/
def State.reset : State where
  V       := Vector.replicate 16 0
  I       := 0
  pc      := 512
  sp      := 0
  stack   := Vector.replicate 16 0
  delay   := 0
  sound   := 0
  keypad  := 0
  fb      := Vector.replicate 32 0
  dirty   := false
  fault   := none
  elapsed := 0
  mem     := []
  params  := paramsDefault
  phase   := .awaitLoad
  output  := none
  env     := { hostIn := [], rndIn := [], costIn := [], costDraws := 0 }

end Sys2Proof.Machine

namespace Sys2Proof

/-- Free value (log entry 3): the byte the port `rnd` presents to an RND executed in a state, where the state lists none.
"a free input of the step", "bound by no law and by no relation to earlier values" (44_timers_keys_random.md R154); no
generator state, seed or sequence position is kept for it (10_state.md R40). It has no body: nothing can be proved of
it. -/
opaque Config.rnd : Machine.State → Byte

end Sys2Proof
end

