-- ==== Sys2Proof/Machine/Ops.lean ====
section
/-! DEFINITION. The operations every meaning is written with: registers, memory, the span rule, raising a fault (the
machine's exceptions, 60_exceptions.md R208), the fetch, and placing an instruction where it is fetched. -/

namespace Sys2Proof.Machine

/-! ## Registers (10_state.md R20 to R28) -/

/-- `V[x]`. -/
def State.reg (s : State) (x : Reg) : Byte := s.V[x.val]

/-- `V[x] <- b` (R8). -/
def State.setReg (s : State) (x : Reg) (b : Byte) : State :=
  { s with V := s.V.set x.val b x.isLt }

/-- `pc <- a` (R11). -/
def State.setPc (s : State) (a : Word) : State := { s with pc := a }

/-- `I <- a` (R28). -/
def State.setI (s : State) (a : Word) : State := { s with I := a }

/-- The number of VF, the flag register `V[15]` (R26). -/
def vf : Reg := 15

/-! ## Memory (20_memory.md R50 to R61) -/

/-- The byte at an address: the listed one, or what an unlisted address reads as (R9, R41, R56). -/
def Memory.read : Memory → Nat → Byte
  | [], a => unlistedByte a
  | (b, v) :: m, a => if a = b then v else Memory.read m a

/-- A cell put before the first one of a higher address. -/
def Memory.insert (a : Nat) (v : Byte) : Memory → Memory
  | [] => [(a, v)]
  | (b, w) :: m => if a < b then (a, v) :: (b, w) :: m else (b, w) :: Memory.insert a v m

/-- Memory without what it lists at `a`. -/
def Memory.drop (a : Nat) : Memory → Memory
  | [] => []
  | (b, w) :: m => if a = b then Memory.drop a m else (b, w) :: Memory.drop a m

/-- `MemWrite(a, 1, v)` (R9): one byte stored, the list kept canonical. There is no address above 4095 (R61): nothing
is stored there, and no meaning gets that far (R146). -/
def Memory.write (m : Memory) (a : Nat) (v : Byte) : Memory :=
  if a < Config.memSize then
    if v = unlistedByte a then Memory.drop a m else Memory.insert a v (Memory.drop a m)
  else m

/-- Consecutive bytes stored from `a` upward, in ascending order (R51, R57). -/
def Memory.writeBytes (m : Memory) (a : Nat) : List Byte → Memory
  | [] => m
  | v :: vs => Memory.writeBytes (m.write a v) (a + 1) vs

/-- The canonical form: addresses strictly rising, within memory, no entry equal to what an unlisted address reads as. -/
abbrev Memory.wf (m : Memory) : Prop :=
  m.Pairwise (fun c d => c.1 < d.1) ∧ ∀ c ∈ m, c.1 < Config.memSize ∧ c.2 ≠ unlistedByte c.1

/-! ## Faults (60_exceptions.md): the machine's exceptions -/

/-- The 3-bit code of the fault register (R37, R200). -/
def faultCode : Option CoreFault → BitVec 3
  | none => 0
  | some .decodeError => 1
  | some .outOfBounds => 2
  | some .stackOverflow => 3
  | some .stackUnderflow => 4
  | some .imageTooLarge => 5

/-- `fault <- code`, the whole of a fault's entry: no vector, no saved state, no mode change, nothing else written (R208). -/
def State.withFault (s : State) (f : CoreFault) : State := { s with fault := some f }

/-- `raise F` (R10, R208): the operation ends at once in the state with the fault recorded. There is no return from it
(R211): only a reset leaves the halted state (R209). -/
def raise (f : CoreFault) (s : State) : Host.Outcome State Fault Refusal := .next (s.withFault f)

/-! ## The span rule (43_index_memory.md R146) -/

/-- The address of byte `k` of the span at `I`, an unbounded integer, never wrapped (R146). -/
def State.spanAddr (s : State) (k : Nat) : Nat := s.I.toNat + k

/-- `I + L` does not pass the end of memory (R146). -/
def State.spanFits (s : State) (len : Nat) : Bool := s.I.toNat + len ≤ Config.memSize

/-- The test before the first access and before any other effect (R146): `OutOfBounds`, or go on. -/
def withSpan (s : State) (len : Nat) (go : State) : Host.Outcome State Fault Refusal :=
  if s.spanFits len then .next go else raise .outOfBounds s

/-! ## The fetch (30_encoding.md R87) -/

/-- The opcode at `pc`, big-endian (20_memory.md R50); none when `pc + 1` passes the end of memory (R87). -/
def State.fetch (s : State) : Option Word :=
  if s.pc.toNat + 1 > 4095 then none
  else some (opcodeOfBytes (s.mem.read s.pc.toNat) (s.mem.read (s.pc.toNat + 1)))

/-- `pc <- pc + 2`, before decoding (R88). -/
def State.advance (s : State) : State := s.setPc (s.pc + 2)

/-! ## Placing an instruction where it is fetched (log entry 11) -/

/-- A pending reset would come before the fetch: the calls without the resets at their head. -/
def dropResets : List HostCall → List HostCall
  | .rst :: rest => dropResets rest
  | calls => calls

/-- Where a fetch can take place: `pc` itself, or the entry point when nothing can be fetched at `pc` (R87). -/
def fetchablePc (pc : Word) : Word := if pc.toNat + 1 > 4095 then 512 else pc

/-- The word stored at the place of the next fetch, in a core that is unfaulted and in its instruction loop. -/
def placeWord (s : State) (w : Word) : State :=
  let pc := fetchablePc s.pc
  { s with
    pc := pc
    mem := (s.mem.write pc.toNat (hiByte w)).write (pc.toNat + 1) (loByte w)
    fault := none
    phase := .running
    env := { s.env with hostIn := dropResets s.env.hostIn } }

end Sys2Proof.Machine
end

