-- ==== Sys2Proof/Machine/Flags.lean ====
section
/-! DEFINITION. The one flag, VF, and its computations (10_state.md R26, R27; 42_alu.md R126 to R130, R134, R136). -/

namespace Sys2Proof.Machine

/-- A flag's value in VF, "always with the value 0 or 1" (R26). -/
def flagByte (b : Bool) : Byte := if b then 1 else 0

/-- ADD: "`VF=1` iff the unsigned sum exceeds 255" (R126). -/
def carryOf (a b : Byte) : Bool := a.toNat + b.toNat > 255

/-- SUB and SUBN: the first operand is strictly the larger (R127, R129). -/
def largerOf (a b : Byte) : Bool := a.toNat > b.toNat

/-- SHR: the shifted-out bit 0 (R128). -/
def shiftedOutRight (a : Byte) : Bool := a.getLsbD 0

/-- SHL: the shifted-out bit 7 (R130). -/
def shiftedOutLeft (a : Byte) : Bool := a.getLsbD 7

/-- The result to `V[x]`, then the flag to `V[15]`, last: with `x = 15` the flag remains (R27, R134). -/
def State.setResultFlag (s : State) (x : Reg) (r : Byte) (f : Bool) : State :=
  (s.setReg x r).setReg vf (flagByte f)

end Sys2Proof.Machine
end

