-- ==== Sys2Proof/Machine/Operands.lean ====
section
/-! DEFINITION. The operand forms (30_encoding.md R75, R76): immediates, the implicit operands, and what the rules
compute from a register before using it. -/

namespace Sys2Proof.Machine

/-- `zext_16` of a 12-bit address (R6, R75). -/
def zextAddr (nnn : Addr) : Word := nnn.setWidth 16

/-- `zext_16` of a byte (R6). -/
def zextByte (b : Byte) : Word := b.setWidth 16

/-- The low nibble of a byte: a key number (41_skip.md R116) or a glyph number (43_index_memory.md R142). -/
def lowNibble (b : Byte) : Nat := b.toNat % 16

/-- `keypad[k]`: key `k` is held (10_state.md R35). -/
def State.keyHeld (s : State) (k : Nat) : Bool := s.keypad.getLsbD k

/-- The address of glyph `d` in the table at 0: `d * 5` (R142). -/
def glyphAddr (d : Nat) : Word := BitVec.ofNat 16 (d * Config.glyphStride)

/-- The lowest `k` from `k` upward, looking at `fuel` keys, with its bit set in the mask. -/
def lowestKeyFrom (keypad : Word) (k : Nat) : Nat → Nat
  | 0 => k
  | fuel + 1 => if keypad.getLsbD k then k else lowestKeyFrom keypad (k + 1) fuel

/-- The lowest-numbered held key, 0 to 15, of a mask that is not 0 (44_timers_keys_random.md R151). -/
def lowestKey (keypad : Word) : Byte := BitVec.ofNat 8 (lowestKeyFrom keypad 0 15)

/-- Decimal digits of a byte (43_index_memory.md R143): hundreds, tens, ones, each a number 0 to 9. -/
def bcdDigits (v : Byte) : List Byte :=
  [BitVec.ofNat 8 (v.toNat / 100), BitVec.ofNat 8 (v.toNat / 10 % 10), BitVec.ofNat 8 (v.toNat % 10)]

/-- `V[0]` to `V[x]`, inclusive (R144). -/
def regsUpTo (V : Vector Byte 16) (x : Reg) : List Byte := V.toList.take (x.val + 1)

/-- `V[k] <- MemRead(I + k, 1)` for `k` in `0 .. count-1`, in ascending order (R145, R57). -/
def loadRegs (m : Memory) (base : Nat) (V : Vector Byte 16) : Nat → Vector Byte 16
  | 0 => V
  | k + 1 => (loadRegs m base V k).setIfInBounds k (m.read (base + k))

/-- The input `rnd` of an RND executed in a state, and what comes from outside after it (44_timers_keys_random.md R154):
the byte the port presents where one is given, used up by this RND, else the free byte of this state (10_state.md R40; log
entry 3). -/
def State.drawRnd (s : State) : Byte × Env :=
  match s.env.rndIn with
  | b :: rest => (b, { s.env with rndIn := rest })
  | [] => (Config.rnd s, s.env)

/-- COST of an executed instruction (00_scope.md R5, 46_frame_sequencer.md R176): the duration given, else a free one;
never 0 (R177; log entry 4). -/
def Env.drawCost (e : Env) (i : Instr) : Nat × Env :=
  match e.costIn with
  | c :: rest => (max 1 c, { e with costIn := rest })
  | [] => (max 1 (Config.cost i e.costDraws), { e with costDraws := e.costDraws + 1 })

end Sys2Proof.Machine
end

