-- ==== Sys2Proof/Machine/ControlFlow.lean ====
section
/-! DEFINITION. Control transfer: SYS, RET, CALL, JP, JP V0 (40_control_flow.md R100 to R105). On entry `pc` is already
the fetch address plus 2 (R11). -/

namespace Sys2Proof.Machine

/-- The top entry of the stack when `n` are valid, `stack[n-1]` (10_state.md R29). -/
def stackTop (stack : Vector Word 16) (n : Nat) : Word := (stack[n - 1]?).getD 0

/-- SYS nnn: what SYS_POLICY says (R100). -/
def execSys (_nnn : Addr) (s : State) : Host.Outcome State Fault Refusal :=
  match s.params.sysPolicy with
  | .fault => raise .decodeError s
  | .nop => .next s

/-- RET (R101). -/
def execRet (s : State) : Host.Outcome State Fault Refusal :=
  if s.sp = 0 then raise .stackUnderflow s
  else .next { s with sp := s.sp - 1, pc := stackTop s.stack s.sp.toNat }

/-- CALL nnn (R102): the pushed value is the already advanced `pc`. -/
def execCall (nnn : Addr) (s : State) : Host.Outcome State Fault Refusal :=
  if s.sp = 16 then raise .stackOverflow s
  else .next
    { s with
      stack := s.stack.setIfInBounds s.sp.toNat s.pc
      sp := s.sp + 1
      pc := zextAddr nnn }

/-- JP nnn (R103). -/
def execJp (nnn : Addr) (s : State) : Host.Outcome State Fault Refusal :=
  .next (s.setPc (zextAddr nnn))

/-- JP V0, nnn (R104): the sum in 16 bits, not reduced to 12. -/
def execJpV0 (nnn : Addr) (s : State) : Host.Outcome State Fault Refusal :=
  .next (s.setPc (zextAddr nnn + zextByte (s.reg 0)))

end Sys2Proof.Machine
end

