-- ==== Sys2Proof/Machine/Display.lean ====
section
/-! DEFINITION. The framebuffer instructions and the sprite draw and collision unit (45_display.md R160 to R166). -/

namespace Sys2Proof.Machine

/-- A row coordinate, wrapped modulo 32 (R162). -/
def wrapRow (r : Nat) : Fin 32 := ⟨r % 32, Nat.mod_lt _ (by decide)⟩

/-- A column coordinate, wrapped modulo 64 (R162). -/
def wrapCol (c : Nat) : Fin 64 := ⟨c % 64, Nat.mod_lt _ (by decide)⟩

/-- `fb[row][col]` (10_state.md R43). -/
def cell (fb : Framebuffer) (row : Fin 32) (col : Fin 64) : Bool := fb[row.val].getLsbD col.val

/-- `fb[row][col] <- fb[row][col] xor 1` (R161). -/
def toggleCell (fb : Framebuffer) (row : Fin 32) (col : Fin 64) : Framebuffer :=
  fb.set row.val (fb[row.val] ^^^ BitVec.twoPow 64 col.val) row.isLt

/-- What a draw changes on its way: the framebuffer, the collision found so far, the dirty flag (R161). -/
structure Canvas where
  fb    : Framebuffer
  coll  : Bool
  dirty : Bool
  deriving DecidableEq, Repr

/-- One pixel (R161): sprite bit `7 - c` of `b`, at column `px + c` and row `row`, both wrapped. -/
def drawPixel (b : Byte) (px row c : Nat) (cv : Canvas) : Canvas :=
  if b.getLsbD (7 - c) then
    { fb := toggleCell cv.fb (wrapRow row) (wrapCol (px + c))
      coll := cv.coll || cell cv.fb (wrapRow row) (wrapCol (px + c))
      dirty := true }
  else cv

/-- The first `count` pixels of a row, from the left (R161: `c` in `0 .. count-1`). -/
def drawPixels (b : Byte) (px row : Nat) (cv : Canvas) : Nat → Canvas
  | 0 => cv
  | c + 1 => drawPixel b px row c (drawPixels b px row cv c)

/-- The first `count` rows of a sprite, from the top (R161: `r` in `0 .. count-1`). -/
def drawRows (m : Memory) (base px py : Nat) (cv : Canvas) : Nat → Canvas
  | 0 => cv
  | r + 1 => drawPixels (m.read (base + r)) px (py + r) (drawRows m base px py cv r) 8

/-- The canvas after a whole sprite of `n` rows at `V[x]`, `V[y]` (R161, R162). -/
def drawSprite (s : State) (x y : Reg) (n : Nibble) : Canvas :=
  drawRows s.mem s.I.toNat (s.reg x).toNat (s.reg y).toNat
    { fb := s.fb, coll := false, dirty := s.dirty } n.toNat

/-- CLS (R160): `dirty` always. -/
def execCls (s : State) : Host.Outcome State Fault Refusal :=
  .next { s with fb := Vector.replicate 32 0, dirty := true }

/-- DRW Vx, Vy, n (R161): VF last. -/
def execDrw (x y : Reg) (n : Nibble) (s : State) : Host.Outcome State Fault Refusal :=
  let cv := drawSprite s x y n
  withSpan s n.toNat ({ s with fb := cv.fb, dirty := cv.dirty }.setReg vf (flagByte cv.coll))

end Sys2Proof.Machine
end

