-- ==== Sys2Proof/Machine/IndexMemory.lean ====
section
/-! DEFINITION. The index register and the memory instructions (43_index_memory.md R140 to R147). -/

namespace Sys2Proof.Machine

/-- LD I, nnn (R140). -/
def execLdI (nnn : Addr) (s : State) : Host.Outcome State Fault Refusal :=
  .next (s.setI (zextAddr nnn))

/-- ADD I, Vx (R141): modulo 65536, no flag. -/
def execAddI (x : Reg) (s : State) : Host.Outcome State Fault Refusal :=
  .next (s.setI (s.I + zextByte (s.reg x)))

/-- LD F, Vx (R142): the address of the glyph of the low nibble. -/
def execLdF (x : Reg) (s : State) : Host.Outcome State Fault Refusal :=
  .next (s.setI (glyphAddr (lowNibble (s.reg x))))

/-- LD B, Vx (R143): three decimal digits at `I`, `I+1`, `I+2`. -/
def execLdB (x : Reg) (s : State) : Host.Outcome State Fault Refusal :=
  withSpan s 3 { s with mem := s.mem.writeBytes s.I.toNat (bcdDigits (s.reg x)) }

/-- LD [I], Vx (R144): `V[0]` to `V[x]` to memory from `I`; `I` unchanged. -/
def execLdMemVx (x : Reg) (s : State) : Host.Outcome State Fault Refusal :=
  withSpan s (x.val + 1) { s with mem := s.mem.writeBytes s.I.toNat (regsUpTo s.V x) }

/-- LD Vx, [I] (R145): `V[0]` to `V[x]` from memory at `I`; `I` unchanged. -/
def execLdVxMem (x : Reg) (s : State) : Host.Outcome State Fault Refusal :=
  withSpan s (x.val + 1) { s with V := loadRegs s.mem s.I.toNat s.V (x.val + 1) }

end Sys2Proof.Machine
end

