-- ==== Sys2Proof/Machine/Skip.lean ====
section
/-! DEFINITION. The six conditional skips (41_skip.md R110 to R116). -/

namespace Sys2Proof.Machine

/-- `pc <- pc + 2` when the condition holds, otherwise nothing. -/
def skipIf (c : Bool) (s : State) : Host.Outcome State Fault Refusal :=
  .next (if c then s.setPc (s.pc + 2) else s)

/-- SE Vx, kk (R110). -/
def execSeImm (x : Reg) (kk : Byte) (s : State) : Host.Outcome State Fault Refusal :=
  skipIf (s.reg x == kk) s

/-- SNE Vx, kk (R111). -/
def execSneImm (x : Reg) (kk : Byte) (s : State) : Host.Outcome State Fault Refusal :=
  skipIf (s.reg x != kk) s

/-- SE Vx, Vy (R112). -/
def execSeReg (x y : Reg) (s : State) : Host.Outcome State Fault Refusal :=
  skipIf (s.reg x == s.reg y) s

/-- SNE Vx, Vy (R113). -/
def execSneReg (x y : Reg) (s : State) : Host.Outcome State Fault Refusal :=
  skipIf (s.reg x != s.reg y) s

/-- SKP Vx (R114, R116). -/
def execSkp (x : Reg) (s : State) : Host.Outcome State Fault Refusal :=
  skipIf (s.keyHeld (lowNibble (s.reg x))) s

/-- SKNP Vx (R115, R116). -/
def execSknp (x : Reg) (s : State) : Host.Outcome State Fault Refusal :=
  skipIf (!s.keyHeld (lowNibble (s.reg x))) s

end Sys2Proof.Machine
end

