-- ==== Sys2Proof/Machine/TimersKeys.lean ====
section
/-! DEFINITION. Timer access, the key wait and the random byte (44_timers_keys_random.md R150 to R155). -/

namespace Sys2Proof.Machine

/-- LD Vx, DT (R150). -/
def execLdVxDT (x : Reg) (s : State) : Host.Outcome State Fault Refusal :=
  .next (s.setReg x s.delay)

/-- LD Vx, K (R151): with no key held `pc` goes back to this instruction; else the lowest held key. -/
def execLdVxK (x : Reg) (s : State) : Host.Outcome State Fault Refusal :=
  .next (if s.keypad = 0 then s.setPc (s.pc - 2) else s.setReg x (lowestKey s.keypad))

/-- LD DT, Vx (R152). -/
def execLdDTVx (x : Reg) (s : State) : Host.Outcome State Fault Refusal :=
  .next { s with delay := s.reg x }

/-- LD ST, Vx (R153). -/
def execLdSTVx (x : Reg) (s : State) : Host.Outcome State Fault Refusal :=
  .next { s with sound := s.reg x }

/-- RND Vx, kk (R154): a fresh input byte, masked. -/
def execRnd (x : Reg) (kk : Byte) (s : State) : Host.Outcome State Fault Refusal :=
  .next ({ s with env := s.drawRnd.2 }.setReg x (s.drawRnd.1 &&& kk))

end Sys2Proof.Machine
end

