-- ==== Sys2Proof/Machine/Sequencer.lean ====
section
/-! DEFINITION. What stands around an instruction: the frame sequencer (46_frame_sequencer.md R170 to R184), reset and
the program load (70_reset_and_hazards.md R230 to R238), the halted core (60_exceptions.md R209), and the host's calls.
Everything here takes the instructions' meaning as an argument `ex`; Step.lean puts `exec` in. -/

namespace Sys2Proof.Machine

/-! ## Reset and the program load -/

/-- FONT as the 80 bytes of addresses 0 to 79 (10_state.md R42). -/
def fontBytes (font : Vector (Vector Byte 5) 16) : List Byte :=
  (font.toList.map (fun g => g.toList)).flatten

/-- Memory after reset: FONT at 0 to 79, 0 at 80 to 4095 (R230). -/
def resetMemory (font : Vector (Vector Byte 5) 16) : Memory := Memory.writeBytes [] 0 (fontBytes font)

/-- Reset under given parameters: every piece of state to its reset value (R230). The parameters are the machine's, and
what comes from outside is not its state: both stay (log entry 6). -/
def resetWith (p : Params) (e : Env) : State :=
  { State.reset with mem := resetMemory p.font, params := p, env := e }

/-- Program load (R235, R237): the image to 512 and up, or ImageTooLarge with nothing written. -/
def loadImage (img : List Byte) (s : State) : State :=
  if img.length > Config.maxImage then s.withFault .imageTooLarge
  else { s with mem := s.mem.writeBytes Config.progBase img, phase := .ready }

/-! ## The frame (R171) -/

/-- A timer's decrement, "saturating at zero" (R178). -/
def tickTimer (t : Byte) : Byte := if t = 0 then 0 else t - 1

/-- A frame's start: the mask latched, `elapsed` cleared (R174, R175). -/
def startFrame (keys : Word) (s : State) : State :=
  { s with keypad := keys, elapsed := 0, output := none, phase := .running }

/-- A frame's end, phase (b) of R171: tick (R178), output with the tone sampled after the tick (R180), `dirty` cleared
(R181). -/
def endFrame (s : State) : State :=
  { s with
    delay := tickTimer s.delay
    sound := tickTimer s.sound
    output := some
      { fb := s.fb
        dirty := s.dirty
        tone := tickTimer s.sound != 0
        delay := tickTimer s.delay
        sound := tickTimer s.sound }
    dirty := false
    phase := .ready }

/-- `elapsed <- elapsed + c`, and the loop's test after it (R171, R176). -/
def charge (i : Instr) (t : State) : State :=
  { t with
    elapsed := t.elapsed + (t.env.drawCost i).1
    env := (t.env.drawCost i).2
    phase := if t.params.frameBudget ≤ t.elapsed + (t.env.drawCost i).1 then .ending else .running }

/-- After an instruction: its cost is charged; a step that raised a fault abandons the frame and charges nothing (R183,
R208). -/
def finishInstr (i : Instr) : Host.Outcome State Fault Refusal → Host.Outcome State Fault Refusal
  | .next t =>
    match t.fault with
    | none => .next (charge i t)
    | some _ => .next t
  | .fault r => .fault r
  | .refused r => .refused r

/-- One instruction: fetch, advance, decode, execute (30_encoding.md R87, R88). -/
def runInstr (ex : Instr → State → Host.Outcome State Fault Refusal) (s : State) :
    Host.Outcome State Fault Refusal :=
  match s.fetch with
  | none => raise .outOfBounds s
  | some op =>
    match decode op with
    | .ok i => finishInstr i (ex i s.advance)
    | .error _ => raise .decodeError s.advance

/-! ## The host's calls (R170; log entry 6) -/

/-- The state with other calls of the host still to come. -/
def State.withHostIn (s : State) (calls : List HostCall) : State :=
  { s with env := { s.env with hostIn := calls } }

/-- A reset core waits for its one program load (R234, R236). -/
def bootStep (s : State) : Host.Outcome State Fault Refusal :=
  match s.env.hostIn with
  | .load img :: rest => .next (loadImage img (s.withHostIn rest))
  | .frame _ :: _ => .refused .frameBeforeLoad
  | .rst :: _ | .wait :: _ | [] => .next s

/-- Between frames the core does nothing until the host starts one (60_exceptions.md R222); a second load has no step
(R238). -/
def readyStep (s : State) : Host.Outcome State Fault Refusal :=
  match s.env.hostIn with
  | .frame keys :: rest => .next (startFrame keys (s.withHostIn rest))
  | .load _ :: _ => .refused .loadOutOfOrder
  | .rst :: _ | .wait :: _ | [] => .next s

/-- The halted core has no step of its own; a frame start is ignored, a load has no step (R209, R238). -/
def haltedStep (f : CoreFault) (s : State) : Host.Outcome State Fault Refusal :=
  match s.env.hostIn with
  | .frame _ :: rest => .next (s.withHostIn rest)
  | .load _ :: _ => .refused .loadOutOfOrder
  | .rst :: _ | .wait :: _ => .next s
  | [] => .fault (.halted f)

/-- The core's turn, by the fault register and the phase. -/
def coreStep (ex : Instr → State → Host.Outcome State Fault Refusal) (s : State) :
    Host.Outcome State Fault Refusal :=
  match s.fault with
  | some f => haltedStep f s
  | none =>
    match s.phase with
    | .awaitLoad => bootStep s
    | .ready => readyStep s
    | .running => runInstr ex s
    | .ending => .next (endFrame s)

/-- A host that waits lets the core take its turn: one leading `wait` is used up (log entry 6). -/
def dropWait : List HostCall → List HostCall
  | .wait :: rest => rest
  | calls => calls

/-- The state in which the core takes its turn. -/
def State.hostTurn (s : State) : State := s.withHostIn (dropWait s.env.hostIn)

/-- One step: a reset acts at once, whatever the core is doing (R230); otherwise the core takes its turn. -/
def sequencerStep (ex : Instr → State → Host.Outcome State Fault Refusal) (s : State) :
    Host.Outcome State Fault Refusal :=
  match s.env.hostIn with
  | .rst :: rest => .next (resetWith s.params { s.env with hostIn := rest })
  | _ => coreStep ex s.hostTurn

end Sys2Proof.Machine
end

