-- ==== Sys2Proof/Machine/Step.lean ====
section
/-! DEFINITION. The step of the machine (30_encoding.md R88 inside 46_frame_sequencer.md R171), and a state whose next
step runs a given word. -/

namespace Sys2Proof.Machine

/-- One step of the machine: the sequencer's step with the instructions' meanings put in. -/
def step (s : State) : Host.Outcome State Fault Refusal := sequencerStep exec s

/-- The state whose next step fetches and runs the instruction of a word of spec/opcode_table.json (log entry 11). -/
def State.withFetchWord (s : State) (nbits w : Nat) : State := placeWord s (tableWord nbits w)

end Sys2Proof.Machine
end

