-- ==== Sys2Proof/Safety.lean ====
section
/-! DEFINITION. What claims speak of: the invariant of the machine, the booted state, and a run that stays unfaulted. -/

namespace Sys2Proof

open Machine

/-- What every step keeps: memory canonical; at most 16 stack entries (10_state.md R30); `pc` at most 4350, and every
valid stack entry a return address, at most 4096 (R25). -/
structure Inv (s : State) : Prop where
  /-- Memory keeps its canonical form. -/
  mem_wf : s.mem.wf
  /-- `0 <= sp <= 16` (R30). -/
  sp_le : s.sp.toNat ≤ Config.stackDepth
  /-- "The largest value `pc` can hold is 0x10FE = 4350" (R25). -/
  pc_le : s.pc.toNat ≤ 4350
  /-- "RET restores a value CALL pushed, which is at most 4096" (R25). -/
  stack_le : ∀ k : Fin 16, k.val < s.sp.toNat → (s.stack[k.val]).toNat ≤ 4096

/-- The booted state of an image under given parameters (70_reset_and_hazards.md R236): the reset state with the image
at 512, waiting for the first frame. -/
def booted (p : Params) (e : Env) (img : List Byte) : State := loadImage img (resetWith p e)

/-- Every piece of state that R44 and R230 list is at its reset value, FONT being the one of the state's parameters
(10_state.md R44, 70_reset_and_hazards.md R230). -/
structure AtReset (s : State) : Prop where
  /-- "`V[0..15] = 0`". -/
  V : ∀ x, s.reg x = 0
  /-- "`I = 0`". -/
  I : s.I = 0
  /-- "`pc = 512`". -/
  pc : s.pc = 512
  /-- "`sp = 0`". -/
  sp : s.sp = 0
  /-- "`stack[0..15] = 0`". -/
  stack : ∀ k : Fin 16, s.stack[k.val] = 0
  /-- "`delay = 0`". -/
  delay : s.delay = 0
  /-- "`sound = 0`". -/
  sound : s.sound = 0
  /-- "`keypad = 0`". -/
  keypad : s.keypad = 0
  /-- "`fb` all 0". -/
  fb : ∀ row col, cell s.fb row col = false
  /-- "`dirty = 0`". -/
  dirty : s.dirty = false
  /-- "`fault = 0`". -/
  fault : faultCode s.fault = 0
  /-- "`elapsed = 0`". -/
  elapsed : s.elapsed = 0
  /-- "`mem[0..79] = FONT`": byte `5d + r` is row `r` of glyph `d` (R42). -/
  font : ∀ d : Fin 16, ∀ r : Fin 5, s.mem.read (5 * d.val + r.val) = s.params.font[d.val][r.val]
  /-- "`mem[80..4095] = 0`". -/
  mem : ∀ a, 80 ≤ a → a ≤ 4095 → s.mem.read a = 0

/-- The core is in a frame's instruction loop, unfaulted, and no reset is being given: the precondition under which its
next step runs an instruction (30_encoding.md R88, 46_frame_sequencer.md R171). -/
structure Running (s : State) : Prop where
  /-- "precondition: fault = 0" (R88). -/
  unfaulted : s.fault = none
  /-- In phase (a) of R171. -/
  in_loop : s.phase = .running
  /-- The host does not reset the core at this step. -/
  no_reset : ∀ rest, s.env.hostIn ≠ .rst :: rest

/-- A set bit of the sprite of `DRW Vx, Vy, n` falls on this cell: row `r` of the sprite is the byte at `I + r`, its bit
`7 - c` is column `c`, and the cell is `((V[x]+c) mod 64, (V[y]+r) mod 32)` (45_display.md R161, R162). -/
def SpriteLights (s : State) (x y : Reg) (n : Nibble) (row : Fin 32) (col : Fin 64) : Prop :=
  ∃ r c, r < n.toNat ∧ c < 8 ∧ row.val = ((s.reg y).toNat + r) % 32 ∧ col.val = ((s.reg x).toNat + c) % 64 ∧
    (s.mem.read (s.I.toNat + r)).getLsbD (7 - c) = true

/-- Nothing changed but register `x`, which now holds `b`. -/
structure OnlyReg (x : Reg) (b : Byte) (s t : State) : Prop where
  /-- Everything but the registers is as before: `pc`, `I`, the stack, memory, the timers, the framebuffer, all. -/
  rest : t = { s with V := t.V }
  /-- The destination. -/
  dest : t.reg x = b
  /-- Every other register. -/
  other : ∀ r, r ≠ x → t.reg r = s.reg r

/-- Nothing changed but register `x` and VF: VF holds `f`, and `x`, where it is not VF, holds `r` (10_state.md R27). -/
structure ResultThenFlag (x : Reg) (r f : Byte) (s t : State) : Prop where
  /-- Everything but the registers is as before. -/
  rest : t = { s with V := t.V }
  /-- The flag, written last. -/
  flag : t.reg 15 = f
  /-- The result; with `x = 15` it is lost. -/
  dest : x ≠ 15 → t.reg x = r
  /-- Every other register. -/
  other : ∀ k, k ≠ x → k ≠ 15 → t.reg k = s.reg k

/-- The registers an instruction may write: its destination, VF for the six flag writers, `V[0]` to `V[x]` for the block
load (10_state.md R21, R26). -/
def WritesReg (i : Instr) (r : Reg) : Prop :=
  match i with
  | .ldImm x _ | .addImm x _ | .rnd x _ => r = x
  | .ldReg x _ | .orReg x _ | .andReg x _ | .xorReg x _ => r = x
  | .addReg x _ | .subReg x _ | .shr x _ | .subnReg x _ | .shl x _ => r = x ∨ r = 15
  | .drw _ _ _ => r = 15
  | .ldVxDT x | .ldVxK x => r = x
  | .ldVxMem x => r ≤ x
  | .cls | .ret | .sys _ | .jp _ | .call _ | .ldI _ | .jpV0 _ => False
  | .seImm _ _ | .sneImm _ _ | .seReg _ _ | .sneReg _ _ | .skp _ | .sknp _ => False
  | .ldDTVx _ | .ldSTVx _ | .addI _ | .ldF _ | .ldB _ | .ldMemVx _ => False

/-- The illegal opcodes, written out (30_encoding.md R81). -/
def IllegalOpcode (op : Word) : Prop :=
  let fam := op.toNat / 4096
  let n := op.toNat % 16
  let kk := op.toNat % 256
  (fam = 5 ∧ n ≠ 0) ∨
  (fam = 8 ∧ n ∈ [8, 9, 0xA, 0xB, 0xC, 0xD, 0xF]) ∨
  (fam = 9 ∧ n ≠ 0) ∨
  (fam = 0xE ∧ kk ∉ [0x9E, 0xA1]) ∨
  (fam = 0xF ∧ kk ∉ [0x07, 0x0A, 0x15, 0x18, 0x1E, 0x29, 0x33, 0x55, 0x65])

/-- The SYS opcodes: `0nnn` other than `00E0` and `00EE` (30_encoding.md R82). -/
def SysOpcode (op : Word) : Prop := op.toNat / 4096 = 0 ∧ op.toNat ≠ 0x00E0 ∧ op.toNat ≠ 0x00EE

/-- A safe run of `k` steps: it reaches a state, and no fault is recorded there ("A faulted state is never a successful
final state", 60_exceptions.md R209). -/
def SafeRun (k : Nat) (s t : State) : Prop := core.run k s = .next t ∧ t.fault = none

end Sys2Proof
end

