-- ==== Sys2Proof/WellFormed.lean ====
section
/-! DEFINITION. Which terms of `Instr` an opcode stands for. Every field is typed at its encoded width, so the one check
left is that SYS does not carry the two words that are CLS and RET (30_encoding.md R79, R82). -/

namespace Sys2Proof

/-- `SYS nnn` is "every other opcode `0nnn`": not `00E0` (CLS) and not `00EE` (RET) (R82). -/
def sysFieldOk (nnn : Addr) : Bool :=
  nnn != 0x0E0#12 && nnn != 0x0EE#12

/-- The check of an instruction term. -/
def Instr.wellFormed : Instr → Bool
  | .sys nnn => sysFieldOk nnn
  | .cls | .ret | .jp _ | .call _ | .ldI _ | .jpV0 _ => true
  | .seImm _ _ | .sneImm _ _ | .ldImm _ _ | .addImm _ _ | .rnd _ _ => true
  | .seReg _ _ | .sneReg _ _ | .ldReg _ _ | .orReg _ _ | .andReg _ _ | .xorReg _ _ => true
  | .addReg _ _ | .subReg _ _ | .shr _ _ | .subnReg _ _ | .shl _ _ => true
  | .drw _ _ _ => true
  | .skp _ | .sknp _ | .ldVxDT _ | .ldVxK _ | .ldDTVx _ | .ldSTVx _ => true
  | .addI _ | .ldF _ | .ldB _ | .ldMemVx _ | .ldVxMem _ => true

end Sys2Proof
end

