-- ==== Sys2Proof/Certificates/Slice0/Obligations.lean ====
section
/-! DEFINITION. The statements for the provers. A quoted sentence is the spec's; where a clause is the model's own choice
its docstring names the log entry. -/

open Sys2Proof Sys2Proof.Machine

/-! ## Encoding (30_encoding.md) -/

/-- Encoder and decoder agree on every well-formed instruction with every operand value, whatever bytes follow. Most
patterns are general knowledge (D2: log entry 20). -/
def Obligations.DecodeOfEncode : Prop :=
  ∀ (i : Instr) (rest : List Byte), i.wellFormed = true → decodeBytes (encodeBytes i ++ rest) = .ok (i, rest)

/-- What decodes is a well-formed instruction whose word is the opcode: no bit is dropped, no two words of one
instruction. Most patterns are general knowledge (D2), and the ignored `y` of the shifts is kept in the constructor (log
entry 20). -/
def Obligations.EncodeOfDecode : Prop :=
  ∀ (op : Word) (i : Instr), decode op = .ok i → i.wellFormed = true ∧ encode i = op

/-- R81: the decoder rejects exactly the illegal opcodes as R81 lists them. For the families 5, 9 and E the spec decides
(D5: log entry 20). -/
def Obligations.DecoderRejectsExactlyIllegal : Prop :=
  ∀ op : Word, (∃ r, decode op = .error r) ↔ IllegalOpcode op

/-- Words written out from the patterns of R79 (those the spec's own text decodes among them). Most patterns are general
knowledge (D2: log entry 20). -/
def Obligations.SpecWordsDecode : Prop :=
  decodeTableWord 16 0x00E0 = some .cls ∧ decodeTableWord 16 0x00EE = some .ret ∧
  decodeTableWord 16 0x0123 = some (.sys 0x123) ∧ decodeTableWord 16 0x2210 = some (.call 0x210) ∧
  decodeTableWord 16 0x3100 = some (.seImm 1 0) ∧ decodeTableWord 16 0x6005 = some (.ldImm 0 5) ∧
  decodeTableWord 16 0x8AB6 = some (.shr 10 11) ∧ decodeTableWord 16 0xC10F = some (.rnd 1 0x0F) ∧
  decodeTableWord 16 0xD125 = some (.drw 1 2 5) ∧ decodeTableWord 16 0xE49E = some (.skp 4) ∧
  decodeTableWord 16 0xF029 = some (.ldF 0) ∧ decodeTableWord 16 0xF255 = some (.ldMemVx 2) ∧
  decodeTableWord 16 0x8128 = none ∧ decodeTableWord 16 0xF175 = none

/-! ## Control flow (40_control_flow.md) -/

/-- R100: SYS does what SYS_POLICY says; the default is `fault`. Either way the instruction completes. The policy and
its default are the spec's decision D4 (log entry 1). The pattern is general knowledge (D2: log entry 20). -/
def Obligations.SysFollowsPolicy : Prop :=
  State.reset.params.sysPolicy = .fault ∧
  ∀ (nnn : Addr) (s : State),
    (nnn ≠ 0x0E0#12 → nnn ≠ 0x0EE#12 → decode (0x0#4 ++ nnn) = .ok (.sys nnn)) ∧
    (s.params.sysPolicy = .fault → exec (.sys nnn) s = .next { s with fault := some .decodeError }) ∧
    (s.params.sysPolicy = .nop → exec (.sys nnn) s = .next s)

/-- R101: RET pops the stack into `pc`; with an empty stack it raises StackUnderflow and changes nothing else. The
pattern is general knowledge (D2: log entry 20). The stack as entries with a count, the popped bits kept, is the spec's
decision D26 (log entry 15); that the fault changes nothing else is D19 (log entry 7). -/
def Obligations.RetPopsStack : Prop :=
  decode 0x00EE#16 = .ok .ret ∧
  ∀ s : State,
    (s.sp = 0 → exec .ret s = .next { s with fault := some .stackUnderflow }) ∧
    (∀ k : Fin 16, s.sp.toNat = k.val + 1 →
      exec .ret s = .next { s with sp := BitVec.ofNat 5 k.val, pc := s.stack[k.val] })

/-- R102: CALL pushes the advanced `pc` and jumps; with 16 entries it raises StackOverflow and changes nothing else. The
pattern is general knowledge (D2: log entry 20). The stack as entries with a count is the spec's decision D26 (log entry
15); that the fault changes nothing else is D19 (log entry 7). -/
def Obligations.CallPushesReturnAddress : Prop :=
  ∀ (nnn : Addr) (s : State),
    decode (0x2#4 ++ nnn) = .ok (.call nnn) ∧
    (s.sp = 16 → exec (.call nnn) s = .next { s with fault := some .stackOverflow }) ∧
    (∀ k : Fin 16, s.sp.toNat = k.val →
      exec (.call nnn) s = .next
        { s with stack := s.stack.set k.val s.pc, sp := BitVec.ofNat 5 (k.val + 1), pc := nnn.setWidth 16 })

/-- The round trip that R102 quotes: a RET right after the CALL restores `pc` and `sp`. The stack as entries with a
count is the spec's decision D26 (log entry 15). -/
def Obligations.CallThenRetRestoresPc : Prop :=
  ∀ (nnn : Addr) (s t : State), s.sp.toNat < 16 → exec (.call nnn) s = .next t →
    ∃ u, exec .ret t = .next u ∧ u.pc = s.pc ∧ u.sp = s.sp

/-- R103, R104: JP sets `pc` to the address; JP V0 adds `V[0]`, the sum not reduced to 12 bits. That the sum is not
reduced is the spec's decision D15 (log entry 16). The patterns are general knowledge (D2: log entry 20). -/
def Obligations.JumpsSetPc : Prop :=
  ∀ (nnn : Addr) (s : State),
    decode (0x1#4 ++ nnn) = .ok (.jp nnn) ∧
    exec (.jp nnn) s = .next { s with pc := nnn.setWidth 16 } ∧
    decode (0xB#4 ++ nnn) = .ok (.jpV0 nnn) ∧
    ∃ a : Word, exec (.jpV0 nnn) s = .next { s with pc := a } ∧ a.toNat = nnn.toNat + (s.reg 0).toNat

/-! ## Skips (41_skip.md) -/

/-- R110 to R113: the four skips on register contents change `pc` by 2 when the condition holds, and nothing else. The
patterns are general knowledge (D2: log entry 20). -/
def Obligations.CompareSkipsAdvancePc : Prop :=
  ∀ (x y : Reg) (kk : Byte) (s : State),
    decode (0x3#4 ++ (regBits x ++ kk : BitVec 12)) = .ok (.seImm x kk) ∧
    decode (0x4#4 ++ (regBits x ++ kk : BitVec 12)) = .ok (.sneImm x kk) ∧
    decode (0x5#4 ++ (regBits x ++ (regBits y ++ 0x0#4 : BitVec 8) : BitVec 12)) = .ok (.seReg x y) ∧
    decode (0x9#4 ++ (regBits x ++ (regBits y ++ 0x0#4 : BitVec 8) : BitVec 12)) = .ok (.sneReg x y) ∧
    exec (.seImm x kk) s = .next (if s.reg x = kk then { s with pc := s.pc + 2 } else s) ∧
    exec (.sneImm x kk) s = .next (if s.reg x = kk then s else { s with pc := s.pc + 2 }) ∧
    exec (.seReg x y) s = .next (if s.reg x = s.reg y then { s with pc := s.pc + 2 } else s) ∧
    exec (.sneReg x y) s = .next (if s.reg x = s.reg y then s else { s with pc := s.pc + 2 })

/-- R114 to R116: the two key skips test the key numbered by the low nibble of `V[x]`. The low nibble is the spec's
decision D16 (log entry 19). The patterns are general knowledge (D2: log entry 20). -/
def Obligations.KeySkipsTestLowNibble : Prop :=
  ∀ (x : Reg) (k : Fin 16) (s : State), (s.reg x).extractLsb' 0 4 = BitVec.ofFin k →
    decode (0xE#4 ++ (regBits x ++ 0x9E#8 : BitVec 12)) = .ok (.skp x) ∧
    decode (0xE#4 ++ (regBits x ++ 0xA1#8 : BitVec 12)) = .ok (.sknp x) ∧
    exec (.skp x) s = .next (if s.keypad.getLsbD k.val = true then { s with pc := s.pc + 2 } else s) ∧
    exec (.sknp x) s = .next (if s.keypad.getLsbD k.val = true then s else { s with pc := s.pc + 2 })

/-! ## Loads and arithmetic (42_alu.md) -/

/-- R120 to R122: the three plain register writes; VF changes only as the destination. That `7xkk` leaves VF is the
spec's decision D10 (log entry 16). The patterns but that of LD immediate are general knowledge (D2: log entry 20). -/
def Obligations.PlainRegisterWrites : Prop :=
  ∀ (x y : Reg) (kk : Byte) (s : State),
    decode (0x6#4 ++ (regBits x ++ kk : BitVec 12)) = .ok (.ldImm x kk) ∧
    decode (0x7#4 ++ (regBits x ++ kk : BitVec 12)) = .ok (.addImm x kk) ∧
    decode (0x8#4 ++ (regBits x ++ (regBits y ++ 0x0#4 : BitVec 8) : BitVec 12)) = .ok (.ldReg x y) ∧
    (∃ t, exec (.ldImm x kk) s = .next t ∧ OnlyReg x kk s t) ∧
    (∃ t, exec (.addImm x kk) s = .next t ∧
      OnlyReg x (BitVec.ofNat 8 (((s.reg x).toNat + kk.toNat) % 256)) s t) ∧
    (∃ t, exec (.ldReg x y) s = .next t ∧ OnlyReg x (s.reg y) s t)

/-- R123 to R125: the bitwise instructions, bit by bit; VF is not written as a flag. The patterns are general knowledge
(D2: log entry 20). That VF is left alone is the spec's inference from the closed list of R26. -/
def Obligations.BitwiseResults : Prop :=
  ∀ (x y : Reg) (s : State),
    decode (0x8#4 ++ (regBits x ++ (regBits y ++ 0x1#4 : BitVec 8) : BitVec 12)) = .ok (.orReg x y) ∧
    decode (0x8#4 ++ (regBits x ++ (regBits y ++ 0x2#4 : BitVec 8) : BitVec 12)) = .ok (.andReg x y) ∧
    decode (0x8#4 ++ (regBits x ++ (regBits y ++ 0x3#4 : BitVec 8) : BitVec 12)) = .ok (.xorReg x y) ∧
    ∃ r1 r2 r3 t1 t2 t3,
    exec (.orReg x y) s = .next t1 ∧ OnlyReg x r1 s t1 ∧
    exec (.andReg x y) s = .next t2 ∧ OnlyReg x r2 s t2 ∧
    exec (.xorReg x y) s = .next t3 ∧ OnlyReg x r3 s t3 ∧
    ∀ k, k < 8 →
      r1.getLsbD k = ((s.reg x).getLsbD k || (s.reg y).getLsbD k) ∧
      r2.getLsbD k = ((s.reg x).getLsbD k && (s.reg y).getLsbD k) ∧
      r3.getLsbD k = ((s.reg x).getLsbD k != (s.reg y).getLsbD k)

/-- R126: ADD with carry out, operands read before anything is written, flag last. That the flag remains for `x = 15` is
the spec's decision D7 (log entry 16). The pattern is general knowledge (D2: log entry 20). -/
def Obligations.AddSetsCarry : Prop :=
  ∀ (x y : Reg) (s : State),
    decode (0x8#4 ++ (regBits x ++ (regBits y ++ 0x4#4 : BitVec 8) : BitVec 12)) = .ok (.addReg x y) ∧
    ∃ t, exec (.addReg x y) s = .next t ∧
      ResultThenFlag x (BitVec.ofNat 8 (((s.reg x).toNat + (s.reg y).toNat) % 256))
        (if (s.reg x).toNat + (s.reg y).toNat > 255 then 1 else 0) s t

/-- R127: SUB, the flag strict: equal operands leave VF at 0. That the flag remains for `x = 15` is the spec's decision
D7 (log entry 16). The pattern is general knowledge (D2: log entry 20). -/
def Obligations.SubSetsStrictFlag : Prop :=
  ∀ (x y : Reg) (s : State),
    decode (0x8#4 ++ (regBits x ++ (regBits y ++ 0x5#4 : BitVec 8) : BitVec 12)) = .ok (.subReg x y) ∧
    ∃ t, exec (.subReg x y) s = .next t ∧
      ResultThenFlag x (BitVec.ofNat 8 (((s.reg x).toNat + 256 - (s.reg y).toNat) % 256))
        (if (s.reg x).toNat > (s.reg y).toNat then 1 else 0) s t

/-- R129: SUBN, SUB with the operands exchanged, strictness included (the spec's own decision D8, log entry 16). The
pattern is general knowledge (D2: log entry 20). -/
def Obligations.SubnSetsStrictFlag : Prop :=
  ∀ (x y : Reg) (s : State),
    decode (0x8#4 ++ (regBits x ++ (regBits y ++ 0x7#4 : BitVec 8) : BitVec 12)) = .ok (.subnReg x y) ∧
    ∃ t, exec (.subnReg x y) s = .next t ∧
      ResultThenFlag x (BitVec.ofNat 8 (((s.reg y).toNat + 256 - (s.reg x).toNat) % 256))
        (if (s.reg y).toNat > (s.reg x).toNat then 1 else 0) s t

/-- R128, R130 with the summary R136: the shifts in place, whatever `y` is; VF is the bit shifted out. The shift in
place is the spec's decision D9 (log entry 16). The patterns are general knowledge (D2: log entry 20). -/
def Obligations.ShiftsSetShiftedOutBit : Prop :=
  ∀ (x y : Reg) (s : State),
    decode (0x8#4 ++ (regBits x ++ (regBits y ++ 0x6#4 : BitVec 8) : BitVec 12)) = .ok (.shr x y) ∧
    decode (0x8#4 ++ (regBits x ++ (regBits y ++ 0xE#4 : BitVec 8) : BitVec 12)) = .ok (.shl x y) ∧
    (∃ t, exec (.shr x y) s = .next t ∧
      ResultThenFlag x (BitVec.ofNat 8 ((s.reg x).toNat / 2)) (BitVec.ofNat 8 ((s.reg x).toNat % 2)) s t) ∧
    (∃ t, exec (.shl x y) s = .next t ∧
      ResultThenFlag x (BitVec.ofNat 8 (2 * (s.reg x).toNat % 256)) (BitVec.ofNat 8 ((s.reg x).toNat / 128)) s t)

/-! ## Index and memory (43_index_memory.md) -/

/-- R140 to R142: the three instructions that write `I`; nothing else changes. That ADD I wraps without a flag is the
spec's decision D11 (log entry 16). The patterns but that of LD F are general knowledge (D2: log entry 20). -/
def Obligations.IndexInstructions : Prop :=
  ∀ (x : Reg) (nnn : Addr) (s : State),
    decode (0xA#4 ++ nnn) = .ok (.ldI nnn) ∧
    decode (0xF#4 ++ (regBits x ++ 0x1E#8 : BitVec 12)) = .ok (.addI x) ∧
    decode (0xF#4 ++ (regBits x ++ 0x29#8 : BitVec 12)) = .ok (.ldF x) ∧
    exec (.ldI nnn) s = .next { s with I := nnn.setWidth 16 } ∧
    (∃ a : Word, exec (.addI x) s = .next { s with I := a } ∧
      a.toNat = (s.I.toNat + (s.reg x).toNat) % 65536) ∧
    (∃ a : Word, exec (.ldF x) s = .next { s with I := a } ∧ a.toNat = (s.reg x).toNat % 16 * 5)

/-- R143: LD B stores the three digits at `I`, `I+1`, `I+2` and no other byte; past the end it stores nothing. That the
test comes before any store is the spec's decision D13 (log entry 17). The pattern is general knowledge (D2: log entry
20). -/
def Obligations.BcdStoresDigits : Prop :=
  ∀ (x : Reg) (s : State),
    decode (0xF#4 ++ (regBits x ++ 0x33#8 : BitVec 12)) = .ok (.ldB x) ∧
    (s.I.toNat + 3 ≤ 4096 → ∃ m, exec (.ldB x) s = .next { s with mem := m } ∧
      m.read s.I.toNat = BitVec.ofNat 8 ((s.reg x).toNat / 100) ∧
      m.read (s.I.toNat + 1) = BitVec.ofNat 8 ((s.reg x).toNat / 10 % 10) ∧
      m.read (s.I.toNat + 2) = BitVec.ofNat 8 ((s.reg x).toNat % 10) ∧
      ∀ a, a < s.I.toNat ∨ s.I.toNat + 3 ≤ a → m.read a = s.mem.read a) ∧
    (4096 < s.I.toNat + 3 → exec (.ldB x) s = .next { s with fault := some .outOfBounds })

/-- R144: LD [I], Vx stores `V[0]` to `V[x]` at `I` and up, no other byte, and leaves `I`; past the end it stores
nothing. That `I` stays and the test comes first are the spec's decisions D12, D13 (log entry 17). -/
def Obligations.BlockStoreCopiesRegisters : Prop :=
  ∀ (x : Reg) (s : State),
    decode (0xF#4 ++ (regBits x ++ 0x55#8 : BitVec 12)) = .ok (.ldMemVx x) ∧
    (s.I.toNat + x.val + 1 ≤ 4096 → ∃ m, exec (.ldMemVx x) s = .next { s with mem := m } ∧
      (∀ k : Reg, k ≤ x → m.read (s.I.toNat + k.val) = s.reg k) ∧
      ∀ a, a < s.I.toNat ∨ s.I.toNat + x.val + 1 ≤ a → m.read a = s.mem.read a) ∧
    (4096 < s.I.toNat + x.val + 1 → exec (.ldMemVx x) s = .next { s with fault := some .outOfBounds })

/-- R145: LD Vx, [I] loads `V[0]` to `V[x]`, no other register, and leaves `I`; past the end it loads nothing. That `I`
stays and the test comes first are the spec's decisions D12, D13 (log entry 17). -/
def Obligations.BlockLoadCopiesMemory : Prop :=
  ∀ (x : Reg) (s : State),
    decode (0xF#4 ++ (regBits x ++ 0x65#8 : BitVec 12)) = .ok (.ldVxMem x) ∧
    (s.I.toNat + x.val + 1 ≤ 4096 → ∃ t, exec (.ldVxMem x) s = .next t ∧ t = { s with V := t.V } ∧
      (∀ k : Reg, k ≤ x → t.reg k = s.mem.read (s.I.toNat + k.val)) ∧
      ∀ k : Reg, x < k → t.reg k = s.reg k) ∧
    (4096 < s.I.toNat + x.val + 1 → exec (.ldVxMem x) s = .next { s with fault := some .outOfBounds })

/-! ## Timers, keys, random (44_timers_keys_random.md) -/

/-- R150, R152, R153: the timer accesses; writing one timer leaves the other. The patterns are general knowledge (D2:
log entry 20). -/
def Obligations.TimerAccesses : Prop :=
  ∀ (x : Reg) (s : State),
    decode (0xF#4 ++ (regBits x ++ 0x07#8 : BitVec 12)) = .ok (.ldVxDT x) ∧
    decode (0xF#4 ++ (regBits x ++ 0x15#8 : BitVec 12)) = .ok (.ldDTVx x) ∧
    decode (0xF#4 ++ (regBits x ++ 0x18#8 : BitVec 12)) = .ok (.ldSTVx x) ∧
    (∃ t, exec (.ldVxDT x) s = .next t ∧ OnlyReg x s.delay s t) ∧
    exec (.ldDTVx x) s = .next { s with delay := s.reg x } ∧
    exec (.ldSTVx x) s = .next { s with sound := s.reg x }

/-- R151: with no key held LD Vx, K goes back to itself; else it loads the lowest held key. The pattern is general
knowledge (D2: log entry 20). -/
def Obligations.KeyWaitLoadsLowestKey : Prop :=
  ∀ (x : Reg) (s : State),
    decode (0xF#4 ++ (regBits x ++ 0x0A#8 : BitVec 12)) = .ok (.ldVxK x) ∧
    (s.keypad = 0 → exec (.ldVxK x) s = .next { s with pc := s.pc - 2 }) ∧
    (s.keypad ≠ 0 → ∃ (k : Byte) (t : State), exec (.ldVxK x) s = .next t ∧ OnlyReg x k s t ∧
      k.toNat < 16 ∧ s.keypad.getLsbD k.toNat = true ∧ ∀ j, j < k.toNat → s.keypad.getLsbD j = false)

/-- R154, R40: RND masks a byte with `kk`: the byte presented at the port where one is given (so any byte may come),
else the free byte of the state; no sequence position is kept. The form of the input is the model's (log entry 3); that
it is free is the spec's decision D17. The pattern is general knowledge (D2: log entry 20). -/
def Obligations.RndMasksInputByte : Prop :=
  ∀ (x : Reg) (kk : Byte) (s : State),
    decode (0xC#4 ++ (regBits x ++ kk : BitVec 12)) = .ok (.rnd x kk) ∧
    ∃ (r : Byte) (t : State),
    exec (.rnd x kk) s = .next t ∧ t = { s with V := t.V, env := t.env } ∧
    t.reg x = r &&& kk ∧ (∀ k, k ≠ x → t.reg k = s.reg k) ∧
    (∀ b rest, s.env.rndIn = b :: rest → r = b ∧ t.env = { s.env with rndIn := rest }) ∧
    (s.env.rndIn = [] → r = Config.rnd s ∧ t.env = s.env)

/-! ## Display (45_display.md) -/

/-- R160: CLS clears every cell and sets `dirty`, always. -/
def Obligations.ClsClearsScreen : Prop :=
  decode 0x00E0#16 = .ok .cls ∧
  ∀ s : State, ∃ fb, exec .cls s = .next { s with fb := fb, dirty := true } ∧ ∀ row col, cell fb row col = false

/-- R161 to R163: DRW toggles exactly the cells a set sprite bit falls on, wrapped at both edges; VF is 1 exactly when a
lit cell was erased; every other register, `I` and memory are unchanged; past the end of memory it changes nothing. That
the test comes first, also for `n = 0`, is the spec's decision D13 (log entry 17). -/
def Obligations.DrawTogglesSpriteCells : Prop :=
  ∀ (x y : Reg) (n : Nibble) (s : State),
    decode (0xD#4 ++ (regBits x ++ (regBits y ++ n : BitVec 8) : BitVec 12)) = .ok (.drw x y n) ∧
    (s.I.toNat + n.toNat ≤ 4096 → ∃ t, exec (.drw x y n) s = .next t ∧
      t = { s with fb := t.fb, dirty := t.dirty, V := t.V } ∧
      (∀ row col, (SpriteLights s x y n row col → cell t.fb row col = !cell s.fb row col) ∧
        (¬ SpriteLights s x y n row col → cell t.fb row col = cell s.fb row col)) ∧
      ((∃ row col, SpriteLights s x y n row col ∧ cell s.fb row col = true) → t.reg 15 = 1) ∧
      ((¬ ∃ row col, SpriteLights s x y n row col ∧ cell s.fb row col = true) → t.reg 15 = 0) ∧
      (∀ k, k ≠ 15 → t.reg k = s.reg k)) ∧
    (4096 < s.I.toNat + n.toNat → exec (.drw x y n) s = .next { s with fault := some .outOfBounds })

/-- R164: DRW sets `dirty` if and only if one of the `n` sprite bytes is not zero, and never clears it. The reading of
the condition is the spec's decision D18 (log entry 18). -/
def Obligations.DrawDirtyIffNonzeroByte : Prop :=
  ∀ (x y : Reg) (n : Nibble) (s : State), s.I.toNat + n.toNat ≤ 4096 →
    ∃ t, exec (.drw x y n) s = .next t ∧
      (t.dirty = true ↔ s.dirty = true ∨ ∃ r, r < n.toNat ∧ s.mem.read (s.I.toNat + r) ≠ 0)

/-- R166: drawing the same sprite twice restores the framebuffer, and the second draw's VF is 1 if and only if the first
turned at least one cell on. The span test of the hypothesis is the spec's decision D13 (log entry 17). -/
def Obligations.DrawTwiceRestoresScreen : Prop :=
  ∀ (x y : Reg) (n : Nibble) (s t : State), x ≠ 15 → y ≠ 15 → s.I.toNat + n.toNat ≤ 4096 →
    exec (.drw x y n) s = .next t →
    ∃ u, exec (.drw x y n) t = .next u ∧ u.fb = s.fb ∧
      (u.reg 15 = 1 ↔ ∃ row col, cell s.fb row col = false ∧ cell t.fb row col = true)

/-! ## What every instruction keeps -/

/-- R208: an instruction that raises a fault has no other effect (the `pc` advance is the step's). That nothing partial
is left is the spec's decision D19 (log entry 7). -/
def Obligations.FaultingInstructionOnlyRecords : Prop :=
  ∀ (i : Instr) (s t : State) (f : CoreFault),
    s.fault = none → exec i s = .next t → t.fault = some f → t = { s with fault := some f }

/-- R200, R206, R207: every instruction completes, and it raises a fault exactly under the conditions of R200's table.
That SYS faults by its policy is the spec's decision D4 (log entry 1); the one span test before any effect, also for `n
= 0`, is D13 (log entry 17). -/
def Obligations.FaultsExactlyWhenListed : Prop :=
  ∀ (i : Instr) (s : State), s.fault = none → ∃ t, exec i s = .next t ∧
    (t.fault = some .decodeError ↔ (∃ nnn, i = .sys nnn) ∧ s.params.sysPolicy = .fault) ∧
    (t.fault = some .outOfBounds ↔
      (∃ x, i = .ldB x ∧ 4096 < s.I.toNat + 3) ∨
      (∃ x, (i = .ldMemVx x ∨ i = .ldVxMem x) ∧ 4096 < s.I.toNat + x.val + 1) ∨
      (∃ x y n, i = .drw x y n ∧ 4096 < s.I.toNat + n.toNat)) ∧
    (t.fault = some .stackOverflow ↔ (∃ nnn, i = .call nnn) ∧ s.sp = 16) ∧
    (t.fault = some .stackUnderflow ↔ i = .ret ∧ s.sp = 0) ∧
    t.fault ≠ some .imageTooLarge

/-- R37, R200: the codes of the fault register; 6 and 7 never occur. The codes are the spec's decision D19 (log entry
7). -/
def Obligations.FaultRegisterCodes : Prop :=
  (faultCode none).toNat = 0 ∧ (faultCode (some .decodeError)).toNat = 1 ∧
  (faultCode (some .outOfBounds)).toNat = 2 ∧ (faultCode (some .stackOverflow)).toNat = 3 ∧
  (faultCode (some .stackUnderflow)).toNat = 4 ∧ (faultCode (some .imageTooLarge)).toNat = 5 ∧
  ∀ f, (faultCode f).toNat ≤ 5

/-- R21, R22, R26: a register that an instruction does not name as its destination, and that is not VF under one of the
six flag writers, keeps its value; the flag writers that do not fault leave VF at 0 or 1. That ADD immediate and ADD I
leave VF alone are the spec's decisions D10 and D11, that VF holds the flag for `x = 15` is D7 (all log entry 16); that
OR, AND and XOR leave it alone is the spec's inference from the closed list of R26. -/
def Obligations.RegistersOtherwiseKept : Prop :=
  ∀ (i : Instr) (s t : State), exec i s = .next t →
    (∀ r, ¬ WritesReg i r → t.reg r = s.reg r) ∧
    ((∃ x y, i = .addReg x y ∨ i = .subReg x y ∨ i = .subnReg x y ∨ i = .shr x y ∨ i = .shl x y) ∨
        (∃ x y n, i = .drw x y n ∧ s.I.toNat + n.toNat ≤ 4096) →
      t.reg 15 = 0 ∨ t.reg 15 = 1)

/-- R54: of all instructions only LD B and LD [I] write memory; after any other every byte reads as before. -/
def Obligations.OnlyTwoInstructionsStore : Prop :=
  ∀ (i : Instr) (s t : State), exec i s = .next t → (∀ x, i ≠ .ldB x) → (∀ x, i ≠ .ldMemVx x) →
    t.mem = s.mem ∧ ∀ a, t.mem.read a = s.mem.read a

/-- R30, R31: only CALL and RET touch the stack or `sp`. That RET leaves the popped entry's bits in place is the spec's
decision D26 (log entry 15). -/
def Obligations.OnlyCallAndRetTouchStack : Prop :=
  ∀ (i : Instr) (s t : State), exec i s = .next t →
    ((∀ nnn, i ≠ .call nnn) → t.stack = s.stack) ∧
    ((∀ nnn, i ≠ .call nnn) → i ≠ .ret → t.sp = s.sp)

/-- R32 to R34, R36, R43: only LD DT writes `delay`, only LD ST writes `sound`, only CLS and DRW write the framebuffer
or `dirty`, and no instruction clears `dirty`. Who clears `dirty`, and when DRW sets it, are the spec's decision D18
(log entry 18). -/
def Obligations.TimerAndScreenWriters : Prop :=
  ∀ (i : Instr) (s t : State), exec i s = .next t →
    ((∀ x, i ≠ .ldDTVx x) → t.delay = s.delay) ∧
    ((∀ x, i ≠ .ldSTVx x) → t.sound = s.sound) ∧
    (i ≠ .cls → (∀ x y n, i ≠ .drw x y n) → t.fb = s.fb ∧ t.dirty = s.dirty) ∧
    (s.dirty = true → t.dirty = true)

/-- R24, R28: only LD I, ADD I and LD F write `I`; only RET, CALL, the jumps, the skips and LD Vx, K write `pc`. That
the block store and load leave `I` unchanged is the spec's decision D12 (log entry 17). -/
def Obligations.IndexAndPcWriters : Prop :=
  ∀ (i : Instr) (s t : State), exec i s = .next t →
    ((∀ nnn, i ≠ .ldI nnn) → (∀ x, i ≠ .addI x) → (∀ x, i ≠ .ldF x) → t.I = s.I) ∧
    (i ≠ .ret → (∀ nnn, i ≠ .call nnn) → (∀ nnn, i ≠ .jp nnn) → (∀ nnn, i ≠ .jpV0 nnn) →
      (∀ x kk, i ≠ .seImm x kk) → (∀ x kk, i ≠ .sneImm x kk) → (∀ x y, i ≠ .seReg x y) →
      (∀ x y, i ≠ .sneReg x y) → (∀ x, i ≠ .skp x) → (∀ x, i ≠ .sknp x) → (∀ x, i ≠ .ldVxK x) →
      t.pc = s.pc)

/-- R35, R39, R45, R55: no instruction touches the keypad latch, `elapsed`, the parameters, or what the sequencer and the
host hold (the fields `phase`, `output` and `env.hostIn` are the model's own: log entries 6, 9, 10). -/
def Obligations.SequencerStateUntouched : Prop :=
  ∀ (i : Instr) (s t : State), exec i s = .next t →
    t.keypad = s.keypad ∧ t.elapsed = s.elapsed ∧ t.params = s.params ∧ t.phase = s.phase ∧ t.output = s.output ∧
    t.env.hostIn = s.env.hostIn ∧ t.env.costIn = s.env.costIn ∧ t.env.costDraws = s.env.costDraws

/-! ## The step (30_encoding.md R87 to R89) -/

/-- R50: the fetch is big-endian, field by field. The byte order is the spec's decision D1 (log entry 17). -/
def Obligations.FetchIsBigEndian : Prop :=
  ∀ (s : State) (op : Word), s.fetch = some op →
    op.toNat = (s.mem.read s.pc.toNat).toNat * 256 + (s.mem.read (s.pc.toNat + 1)).toNat ∧
    (opFam op).toNat = (s.mem.read s.pc.toNat).toNat / 16 ∧ (opX op).val = (s.mem.read s.pc.toNat).toNat % 16 ∧
    (opY op).val = (s.mem.read (s.pc.toNat + 1)).toNat / 16 ∧
    (opN op).toNat = (s.mem.read (s.pc.toNat + 1)).toNat % 16 ∧
    opKK op = s.mem.read (s.pc.toNat + 1)

/-- R87: a fetch past the end of memory raises OutOfBounds with `pc` unchanged and nothing else changed (a `wait` of the
host is used up: log entry 6). The fault is the spec's decision D14 (log entry 17). -/
def Obligations.FetchPastEndFaults : Prop :=
  ∀ s : State, Running s → 4095 < s.pc.toNat + 1 →
    step s = .next { s.hostTurn with fault := some .outOfBounds }

/-- A step runs the decoded instruction (R88): where the two bytes at `pc` decode to `i`, `pc` advances by 2, `i`
executes, and its cost is charged unless it raised a fault; where they decode to nothing, DecodeError with `pc`
advanced. A `wait` of the host is used up on the way (`hostTurn`: log entry 6). That a faulting step is not charged is
log entry 4 (R183, the spec's decision D19). -/
def Obligations.StepRunsDecodedInstruction : Prop :=
  ∀ s : State, Running s → s.pc.toNat + 1 ≤ 4095 →
    (∀ i : Instr, decodeBytes [s.mem.read s.pc.toNat, s.mem.read (s.pc.toNat + 1)] = .ok (i, []) →
      ∃ t, exec i { s.hostTurn with pc := s.pc + 2 } = .next t ∧
        (t.fault = none → step s = .next (charge i t)) ∧ (t.fault ≠ none → step s = .next t)) ∧
    (∀ r, decodeBytes [s.mem.read s.pc.toNat, s.mem.read (s.pc.toNat + 1)] = .error r →
      step s = .next { s.hostTurn with pc := s.pc + 2, fault := some .decodeError })

/-- R201: an illegal opcode, or a SYS opcode under SYS_POLICY `fault`, raises DecodeError after the `pc` advance, and
nothing else changes. That SYS is among them is the spec's decision D4 (log entry 1), that the families 5, 9 and E are
is D5 (log entry 20), that nothing else changes is D19 (log entry 7), and the `wait` of the host that is used up is log
entry 6. -/
def Obligations.IllegalOpcodeRaisesDecodeError : Prop :=
  ∀ (s : State) (op : Word), Running s → s.fetch = some op →
    IllegalOpcode op ∨ (SysOpcode op ∧ s.params.sysPolicy = .fault) →
    step s = .next { s.hostTurn with pc := s.pc + 2, fault := some .decodeError }

/-- R176: an executed instruction adds a cost of at least 1 to `elapsed`, and the loop ends exactly when that brings
`elapsed` to the budget or above; nothing else changes but the input the cost came from (log entries 4, 5). That COST
and the budget are parameters is the spec's decision D20. -/
def Obligations.CostChargedAndLoopTested : Prop :=
  ∀ (i : Instr) (t : State), ∃ c, 1 ≤ c ∧
    (∀ d rest, t.env.costIn = d :: rest → 1 ≤ d → c = d) ∧
    charge i t = { t with
      elapsed := t.elapsed + c
      env := (charge i t).env
      phase := if t.params.frameBudget ≤ t.elapsed + c then .ending else .running } ∧
    (charge i t).env.hostIn = t.env.hostIn ∧ (charge i t).env.rndIn = t.env.rndIn

/-- A placed word is fetched and run by the very next step, from any state (log entry 11). That a faulting step is not
charged is log entry 4. -/
def Obligations.PlacedWordRunsNext : Prop :=
  ∀ (s : State) (w : Nat) (i : Instr), decodeTableWord 16 w = some i →
    ∃ t, exec i { (s.withFetchWord 16 w).hostTurn with pc := (s.withFetchWord 16 w).pc + 2 } = .next t ∧
      (t.fault = none → step (s.withFetchWord 16 w) = .next (charge i t)) ∧
      (t.fault ≠ none → step (s.withFetchWord 16 w) = .next t)

/-- R65: a store is seen by the next fetch: after LD [I], Vx over the two bytes at `pc`, the fetch reads the stored
registers. The order of the two bytes is the spec's decision D1 (log entry 17). -/
def Obligations.StoreSeenByNextFetch : Prop :=
  ∀ (x j k : Reg) (s t : State), exec (.ldMemVx x) s = .next t → s.I.toNat + x.val + 1 ≤ 4096 →
    s.pc.toNat = s.I.toNat + j.val → k.val = j.val + 1 → k ≤ x →
    t.fetch = some (opcodeOfBytes (s.reg j) (s.reg k))

/-! ## The frame (46_frame_sequencer.md) -/

/-- R174, R175: a frame starts with the mask latched and `elapsed` at 0 (the step of its own, `output` and the host's
list are the model's: log entries 6, 9, 10). That no time is carried over is the spec's decision D21 (log entry 19). -/
def Obligations.FrameStartLatchesKeys : Prop :=
  ∀ (s : State) (keys : Word) (rest : List HostCall), s.fault = none → s.phase = .ready →
    s.env.hostIn = .frame keys :: rest →
    step s = .next { s with
      keypad := keys, elapsed := 0, output := none, phase := .running, env := { s.env with hostIn := rest } }

/-- R178, R180, R181: at a frame's end both timers tick once, saturating; the framebuffer, `dirty` and the tone of the
ticked `sound` are presented; `dirty` is cleared; nothing else of the machine changes. That the tone is sampled after
the tick (D25) and `dirty` cleared here (D18) are the spec's decisions (log entries 18, 19). That a `wait` of the host
is used up, that the output is latched in a field and that `phase` becomes `ready` are the model's choices (log entries
6, 10, 9). -/
def Obligations.FrameEndTicksAndPresents : Prop :=
  ∀ s : State, s.fault = none → s.phase = .ending → (∀ rest, s.env.hostIn ≠ .rst :: rest) →
    ∃ t, step s = .next t ∧
      t = { s.hostTurn with
        delay := t.delay, sound := t.sound, dirty := false, output := t.output, phase := .ready } ∧
      t.delay.toNat = s.delay.toNat - 1 ∧ t.sound.toNat = s.sound.toNat - 1 ∧
      ∃ tone, t.output = some { fb := s.fb, dirty := s.dirty, tone := tone, delay := t.delay, sound := t.sound } ∧
        (tone = true ↔ t.sound ≠ 0)

/-- R179: after `j` frame ends a timer set to `v` reads `max(v - j, 0)`. -/
def Obligations.TimerCountsFrames : Prop :=
  ∀ (j : Nat) (s : State),
    (endFrame^[j] s).delay.toNat = s.delay.toNat - j ∧ (endFrame^[j] s).sound.toNat = s.sound.toNat - j

/-- R173: a frame always reaches its end or a fault in a bounded number of steps: at most as many as the budget that is
left (cost at least 1 each), provided no reset is among the host's pending calls. That a cost is at least one unit, a
microsecond, is log entry 5's. That the loop's end is a phase of its own is the model's (log entry 9), and that a fault
ends the frame the spec's decision D19 (log entry 7). -/
def Obligations.FrameEndsWithinBudget : Prop :=
  ∀ s : State, Running s → (∀ c ∈ s.env.hostIn, c ≠ .rst) →
    ∃ (k : Nat) (t : State), 1 ≤ k ∧ k ≤ max 1 (s.params.frameBudget - s.elapsed) ∧
      Host.Core.run core k s = .next t ∧ (t.phase = .ending ∨ t.fault ≠ none)

/-- R35, R174: the keypad latch changes at a frame start, to the mask the host gives, or at a reset, and at no other
step. The phase, the host's list and its `wait` are the model's (log entries 6, 9). -/
def Obligations.KeypadChangesOnlyAtFrameStart : Prop :=
  ∀ s t : State, step s = .next t →
    t.keypad = s.keypad ∨
    (∃ keys rest, dropWait s.env.hostIn = .frame keys :: rest ∧ s.fault = none ∧ s.phase = .ready ∧ t.keypad = keys) ∨
    (∃ rest, s.env.hostIn = .rst :: rest ∧ t.keypad = 0)

/-! ## Faults, reset and load (60_exceptions.md, 70_reset_and_hazards.md) -/

/-- R209 as the model's step shows it (log entry 7): a halted core ignores a frame start, and with nothing asked of it
the step stops, naming the recorded fault. That every fault halts is the spec's decision D19. -/
def Obligations.HaltedCoreStops : Prop :=
  ∀ (s : State) (f : CoreFault), s.fault = some f →
    (s.env.hostIn = [] → step s = .fault (.halted f)) ∧
    (∀ keys rest, s.env.hostIn = .frame keys :: rest →
      step s = .next { s with env := { s.env with hostIn := rest } })

/-- R209: while `fault` is not 0 and no reset is given, nothing of the machine ever changes, however many steps are
taken. That every fault halts is the spec's decision D19 (log entry 7). -/
def Obligations.HaltedCoreKeepsState : Prop :=
  ∀ (k : Nat) (s t : State), s.fault ≠ none → (∀ c ∈ s.env.hostIn, c ≠ .rst) →
    Host.Core.run core k s = .next t →
    t = { s with env := { s.env with hostIn := t.env.hostIn } }

/-- R44: the reset values. The values of `phase` and `output` and the empty inputs are the model's (log entries 3, 4, 6,
9, 10) and are not part of this statement; which bytes FONT holds is log entry 2's. -/
def Obligations.ResetValues : Prop := AtReset State.reset

/-- R230: a reset given at any time, whatever the core is doing, also after a fault, puts every piece of state to its
reset value, memory to FONT and zeros. -/
def Obligations.ResetAtAnyTime : Prop :=
  ∀ (s : State) (rest : List HostCall), s.env.hostIn = .rst :: rest → ∃ t, step s = .next t ∧ AtReset t

/-- R235, R237: the program load copies the image to 512 and up and touches no other byte; an image of more than 3584
bytes raises ImageTooLarge with nothing written. That a failed load writes nothing is the spec's decision D24 (log entry
8). -/
def Obligations.ProgramLoadCopiesImage : Prop :=
  ∀ (s : State) (img : List Byte) (rest : List HostCall), s.fault = none → s.phase = .awaitLoad →
    s.env.hostIn = .load img :: rest →
    (img.length ≤ 3584 → ∃ m, step s = .next
        { s with mem := m, phase := .ready, env := { s.env with hostIn := rest } } ∧
      (∀ k, k < img.length → some (m.read (512 + k)) = img[k]?) ∧
      ∀ a, a < 512 ∨ 512 + img.length ≤ a → m.read a = s.mem.read a) ∧
    (3584 < img.length → step s = .next
        { s with fault := some .imageTooLarge, env := { s.env with hostIn := rest } })

/-- R236, R238: a frame start before the load, and a load that is not the one load after reset, have no step: the model
refuses them by name. The second is the spec's decision D24; the refusals are log entry 8. -/
def Obligations.OutOfOrderHostCallsRefused : Prop :=
  ∀ (s : State) (img : List Byte) (keys : Word) (rest : List HostCall),
    (s.fault = none → s.phase = .awaitLoad → s.env.hostIn = .frame keys :: rest →
      step s = .refused .frameBeforeLoad) ∧
    (s.fault = none → s.phase = .ready → s.env.hostIn = .load img :: rest → step s = .refused .loadOutOfOrder) ∧
    (s.fault ≠ none → s.env.hostIn = .load img :: rest → step s = .refused .loadOutOfOrder)

/-! ## Invariants -/

/-- No step changes the parameters (R45; that they stand in State is log entry 1). -/
def Obligations.ParametersNeverChange : Prop :=
  ∀ s t : State, step s = .next t → t.params = s.params

/-- The invariant holds right after reset. The canonical form is the model's (log entry 12). -/
def Obligations.ResetMeetsInvariant : Prop := Inv State.reset

/-- Every step keeps the invariant: memory canonical, `0 <= sp <= 16` (R30), `pc` at most 4350 and valid stack entries
at most 4096 (R25). The canonical form is the model's (log entry 12); the bounds on `pc` are the spec's inference (R25)
from its decisions D14, D15 (log entries 16, 17), the stack is D26 (log entry 15). -/
def Obligations.StepKeepsInvariant : Prop :=
  ∀ s t : State, Inv s → step s = .next t → Inv t

/-- Of the model's state, its inputs included (not of the core alone: an idling program brings the core back to the same
state): from a running state on, neither that state nor the state in which its instruction executes ever comes back,
since the inputs move on with every executed instruction and every call (the model's choices, log entries 4 and 6). RND asks
for the free byte of the state in which it executes (log entry 3), so two RNDs of one run never ask for that of one state. -/
def Obligations.RunningStateNeverRecurs : Prop :=
  ∀ (k : Nat) (s t : State), Running s → Host.Core.run core (k + 1) s = .next t →
    t ≠ s ∧ t.hostTurn.advance ≠ s.hostTurn.advance
end

