-- ==== Sys2Proof/Laws/Decode.lean ====
section
/-! SUPPORT. What each field of an encoded word reads back as (30_encoding.md R72, R79): the facts a round trip of
encoder and decoder is made of. -/

namespace Sys2Proof

theorem extract_append_high {a b : Nat} (x : BitVec a) (y : BitVec b) : (x ++ y).extractLsb' b a = x := by
  apply BitVec.eq_of_getLsbD_eq
  intro i hi
  simp [BitVec.getLsbD_append, hi]

theorem extract_append_low {a b : Nat} (x : BitVec a) (y : BitVec b) (k l : Nat) (h : k + l ≤ b) :
    (x ++ y).extractLsb' k l = y.extractLsb' k l := by
  apply BitVec.eq_of_getLsbD_eq
  intro i hi
  simp [BitVec.getLsbD_append, hi, show k + i < b by omega]

theorem extract_all {a : Nat} (x : BitVec a) : x.extractLsb' 0 a = x := by simp

@[simp] theorem regBits_toFin (r : Reg) : (regBits r).toFin = r := rfl

@[simp] theorem regBits_of_toFin (b : Nibble) : regBits b.toFin = b := rfl

@[simp] theorem opFam_encNNN (f : Nibble) (a : Addr) : opFam (encNNN f a) = f := extract_append_high f a

@[simp] theorem opNNN_encNNN (f : Nibble) (a : Addr) : opNNN (encNNN f a) = a :=
  (extract_append_low f a 0 12 (by decide)).trans (extract_all a)

@[simp] theorem opFam_encXKK (f : Nibble) (x : Reg) (k : Byte) : opFam (encXKK f x k) = f := extract_append_high f _

@[simp] theorem opX_encXKK (f : Nibble) (x : Reg) (k : Byte) : opX (encXKK f x k) = x :=
  congrArg BitVec.toFin ((extract_append_low f (regBits x ++ k : BitVec 12) 8 4 (by decide)).trans
    (extract_append_high (regBits x) k))

@[simp] theorem opKK_encXKK (f : Nibble) (x : Reg) (k : Byte) : opKK (encXKK f x k) = k :=
  (extract_append_low f (regBits x ++ k : BitVec 12) 0 8 (by decide)).trans
    ((extract_append_low (regBits x) k 0 8 (by decide)).trans (extract_all k))

@[simp] theorem opFam_encXYN (f : Nibble) (x y : Reg) (n : Nibble) : opFam (encXYN f x y n) = f :=
  extract_append_high f _

@[simp] theorem opX_encXYN (f : Nibble) (x y : Reg) (n : Nibble) : opX (encXYN f x y n) = x :=
  congrArg BitVec.toFin
    ((extract_append_low f (regBits x ++ (regBits y ++ n : BitVec 8) : BitVec 12) 8 4 (by decide)).trans
      (extract_append_high (regBits x) (regBits y ++ n : BitVec 8)))

@[simp] theorem opY_encXYN (f : Nibble) (x y : Reg) (n : Nibble) : opY (encXYN f x y n) = y :=
  congrArg BitVec.toFin
    ((extract_append_low f (regBits x ++ (regBits y ++ n : BitVec 8) : BitVec 12) 4 4 (by decide)).trans
      ((extract_append_low (regBits x) (regBits y ++ n : BitVec 8) 4 4 (by decide)).trans
        (extract_append_high (regBits y) n)))

@[simp] theorem opN_encXYN (f : Nibble) (x y : Reg) (n : Nibble) : opN (encXYN f x y n) = n :=
  (extract_append_low f (regBits x ++ (regBits y ++ n : BitVec 8) : BitVec 12) 0 4 (by decide)).trans
    ((extract_append_low (regBits x) (regBits y ++ n : BitVec 8) 0 4 (by decide)).trans
      ((extract_append_low (regBits y) n 0 4 (by decide)).trans (extract_all n)))

/-- The two bytes of a word, put together again (R50). -/
@[simp] theorem opcodeOfBytes_bytes (w : Word) : opcodeOfBytes (hiByte w) (loByte w) = w := by
  apply BitVec.eq_of_getLsbD_eq
  intro i hi
  show ((hiByte w ++ loByte w : BitVec (8 + 8))).getLsbD i = w.getLsbD i
  rw [BitVec.getLsbD_append]
  by_cases h : i < 8
  · simp [loByte, h]
  · simp [hiByte, h, show i - 8 < 8 by omega, show 8 + (i - 8) = i by omega]

/-- A word is its family nibble and its low 12 bits. -/
theorem encNNN_fields (op : Word) : encNNN (opFam op) (opNNN op) = op := by
  apply BitVec.eq_of_getLsbD_eq
  intro i hi
  show ((opFam op ++ opNNN op : BitVec (4 + 12))).getLsbD i = op.getLsbD i
  rw [BitVec.getLsbD_append]
  by_cases h : i < 12
  · simp [opNNN, h]
  · simp [opFam, h, show i - 12 < 4 by omega, show 12 + (i - 12) = i by omega]

/-- The low 12 bits are the nibble `x` and the byte `kk`. -/
theorem encXKK_fields (op : Word) : encXKK (opFam op) (opX op) (opKK op) = op := by
  have h : (regBits (opX op) ++ opKK op : BitVec 12) = opNNN op := by
    apply BitVec.eq_of_getLsbD_eq
    intro i hi
    show ((op.extractLsb' 8 4 ++ opKK op : BitVec (4 + 8))).getLsbD i = (opNNN op).getLsbD i
    rw [BitVec.getLsbD_append]
    by_cases h : i < 8
    · simp [opNNN, opKK, h, hi]
    · simp [opNNN, h, hi, show i - 8 < 4 by omega, show 8 + (i - 8) = i by omega]
  rw [encXKK, h]
  exact encNNN_fields op

/-- The low byte is the nibbles `y` and `n`. -/
theorem encXYN_fields (op : Word) : encXYN (opFam op) (opX op) (opY op) (opN op) = op := by
  have h : (regBits (opY op) ++ opN op : BitVec 8) = opKK op := by
    apply BitVec.eq_of_getLsbD_eq
    intro i hi
    show ((op.extractLsb' 4 4 ++ opN op : BitVec (4 + 4))).getLsbD i = (opKK op).getLsbD i
    rw [BitVec.getLsbD_append]
    by_cases h : i < 4
    · simp [opKK, opN, h, hi]
    · simp [opKK, h, hi, show i - 4 < 4 by omega, show 4 + (i - 4) = i by omega]
  rw [encXYN, h]
  exact encXKK_fields op

/-- The low byte of the word as an assembled pair of nibbles is `n` in its low four bits. -/
theorem opN_encXKK (f : Nibble) (x : Reg) (k : Byte) : opN (encXKK f x k) = k.extractLsb' 0 4 :=
  (extract_append_low f (regBits x ++ k : BitVec 12) 0 4 (by decide)).trans
    (extract_append_low (regBits x) k 0 4 (by decide))

end Sys2Proof
end

