-- ==== Sys2Proof/Laws/Memory.lean ====
section
/-! SUPPORT. The laws of memory (20_memory.md R56, R62): a read gives what was last written, a write leaves every other
address alone, and every operation keeps the canonical form. The read laws hold of every list, canonical or not. -/

namespace Sys2Proof.Machine

@[simp] theorem Memory.read_nil (a : Nat) : Memory.read [] a = unlistedByte a := rfl

theorem Memory.read_drop_same (m : Memory) (a : Nat) : (Memory.drop a m).read a = unlistedByte a := by
  induction m with
  | nil => rfl
  | cons c m ih =>
    obtain ⟨b, w⟩ := c
    by_cases h : a = b
    · simpa [Memory.drop, h] using h ▸ ih
    · simpa [Memory.drop, Memory.read, h] using ih

theorem Memory.read_drop_other (m : Memory) {a b : Nat} (h : b ≠ a) : (Memory.drop a m).read b = m.read b := by
  induction m with
  | nil => rfl
  | cons c m ih =>
    obtain ⟨d, w⟩ := c
    by_cases had : a = d
    · subst had
      simpa [Memory.drop, Memory.read, h] using ih
    · by_cases hbd : b = d
      · simp [Memory.drop, Memory.read, had, hbd]
      · simpa [Memory.drop, Memory.read, had, hbd] using ih

theorem Memory.read_insert_same (m : Memory) (a : Nat) (v : Byte) (h : ∀ c ∈ m, c.1 ≠ a) :
    (Memory.insert a v m).read a = v := by
  induction m with
  | nil => simp [Memory.insert, Memory.read]
  | cons c m ih =>
    obtain ⟨b, w⟩ := c
    have hb : a ≠ b := fun e => h (b, w) (by simp) e.symm
    by_cases hlt : a < b
    · simp [Memory.insert, Memory.read, hlt]
    · simpa [Memory.insert, Memory.read, hlt, hb] using ih (fun c hc => h c (by simp [hc]))

theorem Memory.read_insert_other (m : Memory) {a b : Nat} (v : Byte) (h : b ≠ a) :
    (Memory.insert a v m).read b = m.read b := by
  induction m with
  | nil => simp [Memory.insert, Memory.read, h]
  | cons c m ih =>
    obtain ⟨d, w⟩ := c
    by_cases hlt : a < d
    · simp [Memory.insert, Memory.read, hlt, h]
    · by_cases hbd : b = d
      · simp [Memory.insert, Memory.read, hlt, hbd]
      · simpa [Memory.insert, Memory.read, hlt, hbd] using ih

theorem Memory.drop_ne (m : Memory) (a : Nat) : ∀ c ∈ Memory.drop a m, c.1 ≠ a := by
  induction m with
  | nil => simp [Memory.drop]
  | cons c m ih =>
    obtain ⟨b, w⟩ := c
    by_cases h : a = b
    · rw [show Memory.drop a ((b, w) :: m) = Memory.drop a m by simp [Memory.drop, h]]
      exact ih
    · rw [show Memory.drop a ((b, w) :: m) = (b, w) :: Memory.drop a m by simp [Memory.drop, h]]
      intro c hc
      rcases List.mem_cons.mp hc with rfl | hc
      · exact fun e => h e.symm
      · exact ih c hc

theorem Memory.mem_drop {m : Memory} {a : Nat} {c : Host.Cell} (h : c ∈ Memory.drop a m) : c ∈ m := by
  induction m with
  | nil => simp [Memory.drop] at h
  | cons d m ih =>
    obtain ⟨b, w⟩ := d
    by_cases hab : a = b
    · simp only [Memory.drop, hab, if_true] at h
      exact List.mem_cons_of_mem _ (ih (hab ▸ h))
    · simp only [Memory.drop, hab, if_false, List.mem_cons] at h
      rcases h with h | h
      · simp [h]
      · exact List.mem_cons_of_mem _ (ih h)

theorem Memory.mem_insert {m : Memory} {a : Nat} {v : Byte} {c : Host.Cell} (h : c ∈ Memory.insert a v m) :
    c = (a, v) ∨ c ∈ m := by
  induction m with
  | nil => simpa [Memory.insert] using h
  | cons d m ih =>
    obtain ⟨b, w⟩ := d
    by_cases hlt : a < b
    · simpa [Memory.insert, hlt] using h
    · simp only [Memory.insert, hlt, if_false, List.mem_cons] at h
      rcases h with h | h
      · simp [h]
      · rcases ih h with h | h
        · simp [h]
        · simp [h]

/-- A read after a write to the same place (R56). -/
theorem Memory.read_write_same (m : Memory) {a : Nat} (v : Byte) (h : a < Config.memSize) :
    (m.write a v).read a = v := by
  unfold Memory.write
  rw [if_pos h]
  split
  · next e => rw [Memory.read_drop_same, e]
  · exact Memory.read_insert_same _ _ _ (Memory.drop_ne m a)

/-- A write leaves every other address alone. -/
theorem Memory.read_write_other (m : Memory) {a b : Nat} (v : Byte) (h : b ≠ a) :
    (m.write a v).read b = m.read b := by
  unfold Memory.write
  split
  · split
    · exact Memory.read_drop_other m h
    · rw [Memory.read_insert_other _ _ h, Memory.read_drop_other m h]
  · rfl

/-- Everything a read sees of a block of bytes written inside memory. -/
theorem Memory.read_writeBytes (m : Memory) (a : Nat) (vs : List Byte) (h : a + vs.length ≤ Config.memSize) (b : Nat) :
    (m.writeBytes a vs).read b = if a ≤ b ∧ b < a + vs.length then vs.getD (b - a) 0 else m.read b := by
  induction vs generalizing m a with
  | nil =>
    have : ¬ (a ≤ b ∧ b < a) := by omega
    simp [Memory.writeBytes, this]
  | cons v vs ih =>
    simp only [List.length_cons] at h ⊢
    rw [Memory.writeBytes, ih (m.write a v) (a + 1) (by omega)]
    by_cases hb : b = a
    · subst hb
      rw [if_neg (by omega), if_pos (by omega), Memory.read_write_same _ _ (by omega)]
      simp
    · rw [Memory.read_write_other _ _ hb]
      by_cases hin : a + 1 ≤ b ∧ b < a + 1 + vs.length
      · rw [if_pos hin, if_pos (by omega)]
        obtain ⟨k, hk⟩ : ∃ k, b - a = k + 1 := ⟨b - a - 1, by omega⟩
        rw [hk, show b - (a + 1) = k by omega]
        simp
      · rw [if_neg hin, if_neg (by omega)]

theorem Memory.drop_wf {m : Memory} (h : m.wf) (a : Nat) : (Memory.drop a m).wf := by
  refine ⟨?_, fun c hc => h.2 c (Memory.mem_drop hc)⟩
  obtain ⟨hp, -⟩ := h
  induction m with
  | nil => simp [Memory.drop]
  | cons d m ih =>
    obtain ⟨b, w⟩ := d
    rw [List.pairwise_cons] at hp
    by_cases hab : a = b
    · simpa [Memory.drop, hab] using hab ▸ ih hp.2
    · simp only [Memory.drop, hab, if_false, List.pairwise_cons]
      exact ⟨fun c hc => hp.1 c (Memory.mem_drop hc), ih hp.2⟩

theorem Memory.insert_wf {m : Memory} (h : m.wf) {a : Nat} {v : Byte} (ha : a < Config.memSize)
    (hv : v ≠ unlistedByte a) (hne : ∀ c ∈ m, c.1 ≠ a) : (Memory.insert a v m).wf := by
  refine ⟨?_, fun c hc => ?_⟩
  · obtain ⟨hp, -⟩ := h
    induction m with
    | nil => simp [Memory.insert]
    | cons d m ih =>
      obtain ⟨b, w⟩ := d
      rw [List.pairwise_cons] at hp
      have hb : b ≠ a := hne (b, w) (by simp)
      by_cases hlt : a < b
      · simp only [Memory.insert, hlt, if_true, List.pairwise_cons]
        refine ⟨fun c hc => ?_, hp⟩
        rcases List.mem_cons.mp hc with rfl | hc
        · exact hlt
        · exact Nat.lt_trans hlt (hp.1 c hc)
      · simp only [Memory.insert, hlt, if_false, List.pairwise_cons]
        refine ⟨fun c hc => ?_, ih (fun c hc => hne c (by simp [hc])) hp.2⟩
        rcases Memory.mem_insert hc with rfl | hc
        · simp only; omega
        · exact hp.1 c hc
  · rcases Memory.mem_insert hc with rfl | hc
    · exact ⟨ha, hv⟩
    · exact h.2 c hc

/-- A store keeps the canonical form. -/
theorem Memory.write_wf {m : Memory} (h : m.wf) (a : Nat) (v : Byte) : (m.write a v).wf := by
  unfold Memory.write
  split
  · next ha =>
    split
    · exact Memory.drop_wf h a
    · next hv => exact Memory.insert_wf (Memory.drop_wf h a) ha hv (Memory.drop_ne m a)
  · exact h

/-- A block of stores keeps the canonical form. -/
theorem Memory.writeBytes_wf {m : Memory} (h : m.wf) (a : Nat) (vs : List Byte) : (m.writeBytes a vs).wf := by
  induction vs generalizing m a with
  | nil => exact h
  | cons v vs ih => exact ih (Memory.write_wf h a v) (a + 1)

@[simp] theorem Memory.nil_wf : Memory.wf [] := ⟨List.Pairwise.nil, fun _ h => nomatch h⟩

end Sys2Proof.Machine
end

