-- ==== Sys2Proof/Laws/State.lean ====
section
/-! SUPPORT. One lemma per field per named update of State, true by rfl. -/

namespace Sys2Proof.Machine

@[simp] theorem State.setReg_V (s : State) (x : Reg) (b : Byte) : (s.setReg x b).V = s.V.set x.val b x.isLt := rfl
@[simp] theorem State.setReg_I (s : State) (x : Reg) (b : Byte) : (s.setReg x b).I = s.I := rfl
@[simp] theorem State.setReg_pc (s : State) (x : Reg) (b : Byte) : (s.setReg x b).pc = s.pc := rfl
@[simp] theorem State.setReg_sp (s : State) (x : Reg) (b : Byte) : (s.setReg x b).sp = s.sp := rfl
@[simp] theorem State.setReg_stack (s : State) (x : Reg) (b : Byte) : (s.setReg x b).stack = s.stack := rfl
@[simp] theorem State.setReg_delay (s : State) (x : Reg) (b : Byte) : (s.setReg x b).delay = s.delay := rfl
@[simp] theorem State.setReg_sound (s : State) (x : Reg) (b : Byte) : (s.setReg x b).sound = s.sound := rfl
@[simp] theorem State.setReg_keypad (s : State) (x : Reg) (b : Byte) : (s.setReg x b).keypad = s.keypad := rfl
@[simp] theorem State.setReg_fb (s : State) (x : Reg) (b : Byte) : (s.setReg x b).fb = s.fb := rfl
@[simp] theorem State.setReg_dirty (s : State) (x : Reg) (b : Byte) : (s.setReg x b).dirty = s.dirty := rfl
@[simp] theorem State.setReg_fault (s : State) (x : Reg) (b : Byte) : (s.setReg x b).fault = s.fault := rfl
@[simp] theorem State.setReg_elapsed (s : State) (x : Reg) (b : Byte) : (s.setReg x b).elapsed = s.elapsed := rfl
@[simp] theorem State.setReg_mem (s : State) (x : Reg) (b : Byte) : (s.setReg x b).mem = s.mem := rfl
@[simp] theorem State.setReg_params (s : State) (x : Reg) (b : Byte) : (s.setReg x b).params = s.params := rfl
@[simp] theorem State.setReg_phase (s : State) (x : Reg) (b : Byte) : (s.setReg x b).phase = s.phase := rfl
@[simp] theorem State.setReg_output (s : State) (x : Reg) (b : Byte) : (s.setReg x b).output = s.output := rfl
@[simp] theorem State.setReg_env (s : State) (x : Reg) (b : Byte) : (s.setReg x b).env = s.env := rfl

@[simp] theorem State.setPc_V (s : State) (a : Word) : (s.setPc a).V = s.V := rfl
@[simp] theorem State.setPc_I (s : State) (a : Word) : (s.setPc a).I = s.I := rfl
@[simp] theorem State.setPc_pc (s : State) (a : Word) : (s.setPc a).pc = a := rfl
@[simp] theorem State.setPc_sp (s : State) (a : Word) : (s.setPc a).sp = s.sp := rfl
@[simp] theorem State.setPc_stack (s : State) (a : Word) : (s.setPc a).stack = s.stack := rfl
@[simp] theorem State.setPc_delay (s : State) (a : Word) : (s.setPc a).delay = s.delay := rfl
@[simp] theorem State.setPc_sound (s : State) (a : Word) : (s.setPc a).sound = s.sound := rfl
@[simp] theorem State.setPc_keypad (s : State) (a : Word) : (s.setPc a).keypad = s.keypad := rfl
@[simp] theorem State.setPc_fb (s : State) (a : Word) : (s.setPc a).fb = s.fb := rfl
@[simp] theorem State.setPc_dirty (s : State) (a : Word) : (s.setPc a).dirty = s.dirty := rfl
@[simp] theorem State.setPc_fault (s : State) (a : Word) : (s.setPc a).fault = s.fault := rfl
@[simp] theorem State.setPc_elapsed (s : State) (a : Word) : (s.setPc a).elapsed = s.elapsed := rfl
@[simp] theorem State.setPc_mem (s : State) (a : Word) : (s.setPc a).mem = s.mem := rfl
@[simp] theorem State.setPc_params (s : State) (a : Word) : (s.setPc a).params = s.params := rfl
@[simp] theorem State.setPc_phase (s : State) (a : Word) : (s.setPc a).phase = s.phase := rfl
@[simp] theorem State.setPc_output (s : State) (a : Word) : (s.setPc a).output = s.output := rfl
@[simp] theorem State.setPc_env (s : State) (a : Word) : (s.setPc a).env = s.env := rfl

@[simp] theorem State.setI_V (s : State) (a : Word) : (s.setI a).V = s.V := rfl
@[simp] theorem State.setI_I (s : State) (a : Word) : (s.setI a).I = a := rfl
@[simp] theorem State.setI_pc (s : State) (a : Word) : (s.setI a).pc = s.pc := rfl
@[simp] theorem State.setI_sp (s : State) (a : Word) : (s.setI a).sp = s.sp := rfl
@[simp] theorem State.setI_stack (s : State) (a : Word) : (s.setI a).stack = s.stack := rfl
@[simp] theorem State.setI_delay (s : State) (a : Word) : (s.setI a).delay = s.delay := rfl
@[simp] theorem State.setI_sound (s : State) (a : Word) : (s.setI a).sound = s.sound := rfl
@[simp] theorem State.setI_keypad (s : State) (a : Word) : (s.setI a).keypad = s.keypad := rfl
@[simp] theorem State.setI_fb (s : State) (a : Word) : (s.setI a).fb = s.fb := rfl
@[simp] theorem State.setI_dirty (s : State) (a : Word) : (s.setI a).dirty = s.dirty := rfl
@[simp] theorem State.setI_fault (s : State) (a : Word) : (s.setI a).fault = s.fault := rfl
@[simp] theorem State.setI_elapsed (s : State) (a : Word) : (s.setI a).elapsed = s.elapsed := rfl
@[simp] theorem State.setI_mem (s : State) (a : Word) : (s.setI a).mem = s.mem := rfl
@[simp] theorem State.setI_params (s : State) (a : Word) : (s.setI a).params = s.params := rfl
@[simp] theorem State.setI_phase (s : State) (a : Word) : (s.setI a).phase = s.phase := rfl
@[simp] theorem State.setI_output (s : State) (a : Word) : (s.setI a).output = s.output := rfl
@[simp] theorem State.setI_env (s : State) (a : Word) : (s.setI a).env = s.env := rfl

@[simp] theorem State.withFault_V (s : State) (f : CoreFault) : (s.withFault f).V = s.V := rfl
@[simp] theorem State.withFault_I (s : State) (f : CoreFault) : (s.withFault f).I = s.I := rfl
@[simp] theorem State.withFault_pc (s : State) (f : CoreFault) : (s.withFault f).pc = s.pc := rfl
@[simp] theorem State.withFault_sp (s : State) (f : CoreFault) : (s.withFault f).sp = s.sp := rfl
@[simp] theorem State.withFault_stack (s : State) (f : CoreFault) : (s.withFault f).stack = s.stack := rfl
@[simp] theorem State.withFault_delay (s : State) (f : CoreFault) : (s.withFault f).delay = s.delay := rfl
@[simp] theorem State.withFault_sound (s : State) (f : CoreFault) : (s.withFault f).sound = s.sound := rfl
@[simp] theorem State.withFault_keypad (s : State) (f : CoreFault) : (s.withFault f).keypad = s.keypad := rfl
@[simp] theorem State.withFault_fb (s : State) (f : CoreFault) : (s.withFault f).fb = s.fb := rfl
@[simp] theorem State.withFault_dirty (s : State) (f : CoreFault) : (s.withFault f).dirty = s.dirty := rfl
@[simp] theorem State.withFault_fault (s : State) (f : CoreFault) : (s.withFault f).fault = some f := rfl
@[simp] theorem State.withFault_elapsed (s : State) (f : CoreFault) : (s.withFault f).elapsed = s.elapsed := rfl
@[simp] theorem State.withFault_mem (s : State) (f : CoreFault) : (s.withFault f).mem = s.mem := rfl
@[simp] theorem State.withFault_params (s : State) (f : CoreFault) : (s.withFault f).params = s.params := rfl
@[simp] theorem State.withFault_phase (s : State) (f : CoreFault) : (s.withFault f).phase = s.phase := rfl
@[simp] theorem State.withFault_output (s : State) (f : CoreFault) : (s.withFault f).output = s.output := rfl
@[simp] theorem State.withFault_env (s : State) (f : CoreFault) : (s.withFault f).env = s.env := rfl

@[simp] theorem State.advance_V (s : State) : (s.advance).V = s.V := rfl
@[simp] theorem State.advance_I (s : State) : (s.advance).I = s.I := rfl
@[simp] theorem State.advance_pc (s : State) : (s.advance).pc = s.pc + 2 := rfl
@[simp] theorem State.advance_sp (s : State) : (s.advance).sp = s.sp := rfl
@[simp] theorem State.advance_stack (s : State) : (s.advance).stack = s.stack := rfl
@[simp] theorem State.advance_delay (s : State) : (s.advance).delay = s.delay := rfl
@[simp] theorem State.advance_sound (s : State) : (s.advance).sound = s.sound := rfl
@[simp] theorem State.advance_keypad (s : State) : (s.advance).keypad = s.keypad := rfl
@[simp] theorem State.advance_fb (s : State) : (s.advance).fb = s.fb := rfl
@[simp] theorem State.advance_dirty (s : State) : (s.advance).dirty = s.dirty := rfl
@[simp] theorem State.advance_fault (s : State) : (s.advance).fault = s.fault := rfl
@[simp] theorem State.advance_elapsed (s : State) : (s.advance).elapsed = s.elapsed := rfl
@[simp] theorem State.advance_mem (s : State) : (s.advance).mem = s.mem := rfl
@[simp] theorem State.advance_params (s : State) : (s.advance).params = s.params := rfl
@[simp] theorem State.advance_phase (s : State) : (s.advance).phase = s.phase := rfl
@[simp] theorem State.advance_output (s : State) : (s.advance).output = s.output := rfl
@[simp] theorem State.advance_env (s : State) : (s.advance).env = s.env := rfl

@[simp] theorem State.withHostIn_V (s : State) (c : List HostCall) : (s.withHostIn c).V = s.V := rfl
@[simp] theorem State.withHostIn_I (s : State) (c : List HostCall) : (s.withHostIn c).I = s.I := rfl
@[simp] theorem State.withHostIn_pc (s : State) (c : List HostCall) : (s.withHostIn c).pc = s.pc := rfl
@[simp] theorem State.withHostIn_sp (s : State) (c : List HostCall) : (s.withHostIn c).sp = s.sp := rfl
@[simp] theorem State.withHostIn_stack (s : State) (c : List HostCall) : (s.withHostIn c).stack = s.stack := rfl
@[simp] theorem State.withHostIn_delay (s : State) (c : List HostCall) : (s.withHostIn c).delay = s.delay := rfl
@[simp] theorem State.withHostIn_sound (s : State) (c : List HostCall) : (s.withHostIn c).sound = s.sound := rfl
@[simp] theorem State.withHostIn_keypad (s : State) (c : List HostCall) : (s.withHostIn c).keypad = s.keypad := rfl
@[simp] theorem State.withHostIn_fb (s : State) (c : List HostCall) : (s.withHostIn c).fb = s.fb := rfl
@[simp] theorem State.withHostIn_dirty (s : State) (c : List HostCall) : (s.withHostIn c).dirty = s.dirty := rfl
@[simp] theorem State.withHostIn_fault (s : State) (c : List HostCall) : (s.withHostIn c).fault = s.fault := rfl
@[simp] theorem State.withHostIn_elapsed (s : State) (c : List HostCall) : (s.withHostIn c).elapsed = s.elapsed := rfl
@[simp] theorem State.withHostIn_mem (s : State) (c : List HostCall) : (s.withHostIn c).mem = s.mem := rfl
@[simp] theorem State.withHostIn_params (s : State) (c : List HostCall) : (s.withHostIn c).params = s.params := rfl
@[simp] theorem State.withHostIn_phase (s : State) (c : List HostCall) : (s.withHostIn c).phase = s.phase := rfl
@[simp] theorem State.withHostIn_output (s : State) (c : List HostCall) : (s.withHostIn c).output = s.output := rfl

@[simp] theorem State.hostTurn_V (s : State) : (s.hostTurn).V = s.V := rfl
@[simp] theorem State.hostTurn_I (s : State) : (s.hostTurn).I = s.I := rfl
@[simp] theorem State.hostTurn_pc (s : State) : (s.hostTurn).pc = s.pc := rfl
@[simp] theorem State.hostTurn_sp (s : State) : (s.hostTurn).sp = s.sp := rfl
@[simp] theorem State.hostTurn_stack (s : State) : (s.hostTurn).stack = s.stack := rfl
@[simp] theorem State.hostTurn_delay (s : State) : (s.hostTurn).delay = s.delay := rfl
@[simp] theorem State.hostTurn_sound (s : State) : (s.hostTurn).sound = s.sound := rfl
@[simp] theorem State.hostTurn_keypad (s : State) : (s.hostTurn).keypad = s.keypad := rfl
@[simp] theorem State.hostTurn_fb (s : State) : (s.hostTurn).fb = s.fb := rfl
@[simp] theorem State.hostTurn_dirty (s : State) : (s.hostTurn).dirty = s.dirty := rfl
@[simp] theorem State.hostTurn_fault (s : State) : (s.hostTurn).fault = s.fault := rfl
@[simp] theorem State.hostTurn_elapsed (s : State) : (s.hostTurn).elapsed = s.elapsed := rfl
@[simp] theorem State.hostTurn_mem (s : State) : (s.hostTurn).mem = s.mem := rfl
@[simp] theorem State.hostTurn_params (s : State) : (s.hostTurn).params = s.params := rfl
@[simp] theorem State.hostTurn_phase (s : State) : (s.hostTurn).phase = s.phase := rfl
@[simp] theorem State.hostTurn_output (s : State) : (s.hostTurn).output = s.output := rfl

@[simp] theorem State.withHostIn_env (s : State) (c : List HostCall) :
    (s.withHostIn c).env = { s.env with hostIn := c } := rfl

@[simp] theorem State.hostTurn_env (s : State) :
    s.hostTurn.env = { s.env with hostIn := dropWait s.env.hostIn } := rfl

/-- Reading the register just written. -/
@[simp] theorem State.reg_setReg_same (s : State) (x : Reg) (b : Byte) : (s.setReg x b).reg x = b := by
  simp [State.reg, State.setReg]

/-- Reading another register. -/
theorem State.reg_setReg_other (s : State) (x r : Reg) (b : Byte) (h : r ≠ x) :
    (s.setReg x b).reg r = s.reg r := by
  have : x.val ≠ r.val := fun e => h (Fin.ext e.symm)
  simp [State.reg, State.setReg, this]

/-- Two writes of one register keep the last. -/
@[simp] theorem State.setReg_setReg_same (s : State) (x : Reg) (a b : Byte) :
    (s.setReg x a).setReg x b = s.setReg x b := by
  simp [State.setReg]

end Sys2Proof.Machine
end

