-- ==== Sys2Proof/Laws/Ops.lean ====
section
/-! SUPPORT. What each shared operation can do, said once: registers and the flag, the span rule, skips, the block load,
the digits, the lowest key, the fetch. -/

namespace Sys2Proof.Machine

/-! ## The span rule -/

theorem State.spanFits_iff (s : State) (n : Nat) : s.spanFits n = true ↔ s.I.toNat + n ≤ 4096 := by
  simp [State.spanFits]

/-- The whole of the span rule (43_index_memory.md R146): go on, or the one fault with nothing else changed. -/
theorem withSpan_cases (s : State) (n : Nat) (go : State) :
    (s.I.toNat + n ≤ 4096 ∧ withSpan s n go = .next go) ∨
      (4096 < s.I.toNat + n ∧ withSpan s n go = .next (s.withFault .outOfBounds)) := by
  by_cases h : s.I.toNat + n ≤ 4096
  · exact .inl ⟨h, by rw [withSpan, if_pos ((s.spanFits_iff n).2 h)]⟩
  · exact .inr ⟨by omega, by rw [withSpan, if_neg (fun e => h ((s.spanFits_iff n).1 e)), raise]⟩

theorem withSpan_in {s : State} {n : Nat} (h : s.I.toNat + n ≤ 4096) (go : State) : withSpan s n go = .next go :=
  (withSpan_cases s n go).elim (·.2) (fun e => absurd e.1 (by omega))

theorem withSpan_out {s : State} {n : Nat} (h : 4096 < s.I.toNat + n) (go : State) :
    withSpan s n go = .next (s.withFault .outOfBounds) :=
  (withSpan_cases s n go).elim (fun e => absurd e.1 (by omega)) (·.2)

/-! ## Result and flag (10_state.md R27) -/

theorem State.setResultFlag_flag (s : State) (x : Reg) (r : Byte) (f : Bool) :
    (s.setResultFlag x r f).reg vf = flagByte f := State.reg_setReg_same _ _ _

theorem State.setResultFlag_result (s : State) {x : Reg} (r : Byte) (f : Bool) (h : x ≠ vf) :
    (s.setResultFlag x r f).reg x = r := by
  rw [State.setResultFlag, State.reg_setReg_other _ _ _ _ h, State.reg_setReg_same]

theorem State.setResultFlag_other (s : State) {x k : Reg} (r : Byte) (f : Bool) (hx : k ≠ x) (hf : k ≠ vf) :
    (s.setResultFlag x r f).reg k = s.reg k := by
  rw [State.setResultFlag, State.reg_setReg_other _ _ _ _ hf, State.reg_setReg_other _ _ _ _ hx]

/-- Nothing but the registers changes. -/
theorem State.setReg_eq (s : State) (x : Reg) (b : Byte) : s.setReg x b = { s with V := (s.setReg x b).V } := rfl

theorem State.setResultFlag_eq (s : State) (x : Reg) (r : Byte) (f : Bool) :
    s.setResultFlag x r f = { s with V := (s.setResultFlag x r f).V } := rfl

theorem flagByte_toNat (b : Bool) : (flagByte b).toNat = if b then 1 else 0 := by cases b <;> rfl

/-! ## Block transfers -/

theorem regsUpTo_length (V : Vector Byte 16) (x : Reg) : (regsUpTo V x).length = x.val + 1 := by
  simp only [regsUpTo, List.length_take, Vector.length_toList]
  omega

theorem regsUpTo_getD (V : Vector Byte 16) (x : Reg) (k : Reg) (h : k.val ≤ x.val) :
    (regsUpTo V x).getD k.val 0 = V[k.val] := by
  have h1 : k.val < x.val + 1 := by omega
  simp [regsUpTo, h1]

/-- The block load, register by register: the loaded ones from memory, the others as before (R145). -/
theorem loadRegs_get (m : Memory) (base : Nat) (V : Vector Byte 16) (n : Nat) (k : Reg) :
    (loadRegs m base V n)[k.val] = if k.val < n then m.read (base + k.val) else V[k.val] := by
  induction n with
  | zero => simp [loadRegs]
  | succ n ih =>
    simp only [loadRegs, Vector.getElem_setIfInBounds]
    by_cases h : n = k.val
    · simp [h]
    · rw [if_neg h, ih]
      by_cases h2 : k.val < n
      · rw [if_pos h2, if_pos (by omega)]
      · rw [if_neg h2, if_neg (by omega)]

@[simp] theorem bcdDigits_length (v : Byte) : (bcdDigits v).length = 3 := rfl

/-! ## The lowest key (44_timers_keys_random.md R151) -/

theorem lowestKeyFrom_spec (w : Word) (k fuel : Nat) (h : ∃ j, k ≤ j ∧ j ≤ k + fuel ∧ w.getLsbD j = true) :
    w.getLsbD (lowestKeyFrom w k fuel) = true ∧ k ≤ lowestKeyFrom w k fuel ∧ lowestKeyFrom w k fuel ≤ k + fuel ∧
      ∀ j, k ≤ j → j < lowestKeyFrom w k fuel → w.getLsbD j = false := by
  induction fuel generalizing k with
  | zero =>
    obtain ⟨j, h1, h2, h3⟩ := h
    obtain rfl : j = k := by omega
    exact ⟨h3, Nat.le_refl _, Nat.le_refl _, fun i hi hi' => absurd hi' (Nat.not_lt.2 hi)⟩
  | succ fuel ih =>
    by_cases hk : w.getLsbD k = true
    · simp only [lowestKeyFrom, hk, if_true]
      exact ⟨trivial, Nat.le_refl _, by omega, fun i hi hi' => absurd hi' (by omega)⟩
    · obtain ⟨j, h1, h2, h3⟩ := h
      have hjk : j ≠ k := fun e => hk (e ▸ h3)
      obtain ⟨a, b, c, d⟩ := ih (k + 1) ⟨j, by omega, by omega, h3⟩
      have hstep : lowestKeyFrom w k (fuel + 1) = lowestKeyFrom w (k + 1) fuel := by simp [lowestKeyFrom, hk]
      rw [hstep]
      refine ⟨a, by omega, by omega, fun i hi hi' => ?_⟩
      by_cases e : i = k
      · exact e ▸ (by simpa using hk)
      · exact d i (by omega) hi'

/-- For a mask that is not 0: the key is held, and no lower one is. -/
theorem lowestKey_spec (w : Word) (h : w ≠ 0) :
    (lowestKey w).toNat < 16 ∧ w.getLsbD (lowestKey w).toNat = true ∧
      ∀ j, j < (lowestKey w).toNat → w.getLsbD j = false := by
  have hex : ∃ j, 0 ≤ j ∧ j ≤ 0 + 15 ∧ w.getLsbD j = true := by
    by_contra hc
    apply h
    apply BitVec.eq_of_getLsbD_eq
    intro i hi
    have : w.getLsbD i ≠ true := fun e => hc ⟨i, Nat.zero_le _, by omega, e⟩
    simpa using this
  obtain ⟨a, -, c, d⟩ := lowestKeyFrom_spec w 0 15 hex
  have hn : (lowestKey w).toNat = lowestKeyFrom w 0 15 := by
    simp only [lowestKey, BitVec.toNat_ofNat]; omega
  rw [hn]
  exact ⟨by omega, a, fun j hj => d j (Nat.zero_le _) hj⟩

/-! ## The free inputs -/

/-- The whole of the random input (44_timers_keys_random.md R154): the presented byte, used up, or the free byte of the
state, with nothing outside changed. -/
theorem State.drawRnd_cases (s : State) :
    (∃ b rest, s.env.rndIn = b :: rest ∧ s.drawRnd = (b, { s.env with rndIn := rest })) ∨
      (s.env.rndIn = [] ∧ s.drawRnd = (Config.rnd s, s.env)) := by
  unfold State.drawRnd
  split
  · next b rest h => exact .inl ⟨b, rest, h, rfl⟩
  · next h => exact .inr ⟨h, rfl⟩

/-- RND touches no other list of the outside. -/
theorem State.drawRnd_env (s : State) : s.drawRnd.2 = { s.env with rndIn := s.env.rndIn.tail } := by
  rcases s.drawRnd_cases with ⟨b, rest, h, e⟩ | ⟨h, e⟩ <;> simp [e, h]
  rw [← h]

/-- The cost input moves on by exactly one with every charged instruction: no two charged instructions find it the
same. -/
theorem Env.drawCost_moves (e : Env) (i : Instr) :
    (e.drawCost i).2.costDraws + e.costIn.length = e.costDraws + (e.drawCost i).2.costIn.length + 1 := by
  unfold Env.drawCost
  split
  · next h => simp [h, Nat.add_assoc]
  · next h => simp [h]

/-- Drawing a cost uses up no call of the host. -/
theorem Env.drawCost_hostIn (e : Env) (i : Instr) : (e.drawCost i).2.hostIn = e.hostIn := by
  unfold Env.drawCost
  split <;> rfl

/-! ## The fetch (30_encoding.md R87) -/

theorem State.fetch_in {s : State} (h : s.pc.toNat + 1 ≤ 4095) :
    s.fetch = some (opcodeOfBytes (s.mem.read s.pc.toNat) (s.mem.read (s.pc.toNat + 1))) := by
  rw [State.fetch, if_neg (by omega)]

theorem State.fetch_out {s : State} (h : 4095 < s.pc.toNat + 1) : s.fetch = none := by
  rw [State.fetch, if_pos (by omega)]

end Sys2Proof.Machine
end

