-- ==== Sys2Proof/Laws/Display.lean ====
section
/-! SUPPORT. The draw unit cell by cell (45_display.md R161 to R165): what one pixel, one row and one sprite do to a
cell, to the collision and to the dirty flag. -/

namespace Sys2Proof.Machine

@[simp] theorem wrapRow_val (r : Nat) : (wrapRow r).val = r % 32 := rfl

@[simp] theorem wrapCol_val (c : Nat) : (wrapCol c).val = c % 64 := rfl

theorem wrapRow_eq_iff (row : Fin 32) (r : Nat) : row = wrapRow r ↔ row.val = r % 32 :=
  ⟨fun h => h ▸ rfl, fun h => Fin.ext h⟩

theorem wrapCol_eq_iff (col : Fin 64) (c : Nat) : col = wrapCol c ↔ col.val = c % 64 :=
  ⟨fun h => h ▸ rfl, fun h => Fin.ext h⟩

/-- Toggling a cell changes that cell and no other. -/
theorem cell_toggleCell (fb : Framebuffer) (r r' : Fin 32) (c c' : Fin 64) :
    cell (toggleCell fb r c) r' c' = (cell fb r' c' ^^ decide (r' = r ∧ c' = c)) := by
  unfold cell toggleCell
  by_cases hr : r' = r
  · subst hr
    rw [Vector.getElem_set_self, BitVec.getLsbD_xor, BitVec.getLsbD_twoPow]
    have hc : (c.val = c'.val) ↔ (c' = c) := ⟨fun e => Fin.ext e.symm, fun e => e ▸ rfl⟩
    simp [hc]
  · have hne : r.val ≠ r'.val := fun e => hr (Fin.ext e.symm)
    rw [Vector.getElem_set_ne _ _ hne]
    simp [hr]

/-- A set bit among the first `count` pixels of a row falls on column `col`. -/
def PixelsHit (b : Byte) (px : Nat) (count : Nat) (col : Fin 64) : Prop :=
  ∃ c, c < count ∧ col = wrapCol (px + c) ∧ b.getLsbD (7 - c) = true

theorem PixelsHit_succ (b : Byte) (px count : Nat) (col : Fin 64) :
    PixelsHit b px (count + 1) col ↔
      PixelsHit b px count col ∨ (col = wrapCol (px + count) ∧ b.getLsbD (7 - count) = true) := by
  constructor
  · rintro ⟨c, hc, h⟩
    by_cases e : c = count
    · exact .inr (e ▸ h)
    · exact .inl ⟨c, by omega, h⟩
  · rintro (⟨c, hc, h⟩ | h)
    · exact ⟨c, by omega, h⟩
    · exact ⟨count, by omega, h⟩

/-- The columns of one row are pairwise distinct (R165): a later pixel is on no earlier one's cell. -/
theorem PixelsHit_fresh (b : Byte) (px count : Nat) (h : count < 8) :
    ¬ PixelsHit b px count (wrapCol (px + count)) := by
  rintro ⟨c, hc, he, -⟩
  have := congrArg Fin.val he
  simp only [wrapCol_val] at this
  omega

/-- One row of pixels, up to eight: the cells it toggles, the collision, the dirty flag. -/
theorem drawPixels_spec (b : Byte) (px row : Nat) (cv : Canvas) (count : Nat) (h : count ≤ 8) :
    (∀ r c, (r = wrapRow row ∧ PixelsHit b px count c → cell (drawPixels b px row cv count).fb r c = !cell cv.fb r c) ∧
      (¬ (r = wrapRow row ∧ PixelsHit b px count c) → cell (drawPixels b px row cv count).fb r c = cell cv.fb r c)) ∧
    ((drawPixels b px row cv count).coll = true ↔
      cv.coll = true ∨ ∃ c, PixelsHit b px count c ∧ cell cv.fb (wrapRow row) c = true) ∧
    ((drawPixels b px row cv count).dirty = true ↔ cv.dirty = true ∨ ∃ c, PixelsHit b px count c) := by
  induction count with
  | zero =>
    have hn : ∀ c, ¬ PixelsHit b px 0 c := fun c ⟨k, hk, _⟩ => absurd hk (Nat.not_lt_zero k)
    simp [drawPixels, hn]
  | succ n ih =>
    obtain ⟨ihc, ihcoll, ihd⟩ := ih (by omega)
    have fresh := PixelsHit_fresh b px n (by omega)
    by_cases hb : b.getLsbD (7 - n) = true
    · have hsucc : ∀ c, PixelsHit b px (n + 1) c ↔ PixelsHit b px n c ∨ c = wrapCol (px + n) := fun c => by
        rw [PixelsHit_succ]; simp [hb]
      have hfresh : cell (drawPixels b px row cv n).fb (wrapRow row) (wrapCol (px + n)) =
          cell cv.fb (wrapRow row) (wrapCol (px + n)) :=
        (ihc _ _).2 (fun e => fresh e.2)
      simp only [drawPixels, drawPixel, hb, if_true]
      refine ⟨fun r c => ⟨fun hin => ?_, fun hout => ?_⟩, ?_, ?_⟩
      · obtain ⟨rfl, hh⟩ := hin
        rw [cell_toggleCell]
        by_cases e : c = wrapCol (px + n)
        · rw [e, hfresh]; simp
        · rw [(ihc _ _).1 ⟨rfl, ((hsucc c).1 hh).resolve_right e⟩]; simp [e]
      · rw [cell_toggleCell, (ihc r c).2 (fun e => hout ⟨e.1, (hsucc c).2 (.inl e.2)⟩)]
        have : ¬ (r = wrapRow row ∧ c = wrapCol (px + n)) := fun e => hout ⟨e.1, (hsucc c).2 (.inr e.2)⟩
        simp [this]
      · rw [Bool.or_eq_true, ihcoll, hfresh]
        constructor
        · rintro ((h1 | ⟨c, h1, h2⟩) | h1)
          · exact .inl h1
          · exact .inr ⟨c, (hsucc c).2 (.inl h1), h2⟩
          · exact .inr ⟨_, (hsucc _).2 (.inr rfl), h1⟩
        · rintro (h1 | ⟨c, h1, h2⟩)
          · exact .inl (.inl h1)
          · rcases (hsucc c).1 h1 with h1 | rfl
            · exact .inl (.inr ⟨c, h1, h2⟩)
            · exact .inr h2
      · exact ⟨fun _ => .inr ⟨_, (hsucc _).2 (.inr rfl)⟩, fun _ => trivial⟩
    · have hsucc : ∀ c, PixelsHit b px (n + 1) c ↔ PixelsHit b px n c := fun c => by
        rw [PixelsHit_succ]; simp [hb]
      simp only [drawPixels, drawPixel, hb, hsucc]
      exact ⟨ihc, ihcoll, ihd⟩

/-- A set bit among the first `count` rows of the sprite at `base` falls on this cell. -/
def RowsHit (m : Memory) (base px py count : Nat) (row : Fin 32) (col : Fin 64) : Prop :=
  ∃ r, r < count ∧ row = wrapRow (py + r) ∧ PixelsHit (m.read (base + r)) px 8 col

theorem RowsHit_succ (m : Memory) (base px py count : Nat) (row : Fin 32) (col : Fin 64) :
    RowsHit m base px py (count + 1) row col ↔
      RowsHit m base px py count row col ∨
        (row = wrapRow (py + count) ∧ PixelsHit (m.read (base + count)) px 8 col) := by
  constructor
  · rintro ⟨r, hr, h⟩
    by_cases e : r = count
    · exact .inr (e ▸ h)
    · exact .inl ⟨r, by omega, h⟩
  · rintro (⟨r, hr, h⟩ | h)
    · exact ⟨r, by omega, h⟩
    · exact ⟨count, by omega, h⟩

/-- The rows of one sprite are pairwise distinct (R165). -/
theorem RowsHit_fresh (m : Memory) (base px py count : Nat) (col : Fin 64) (h : count < 32) :
    ¬ RowsHit m base px py count (wrapRow (py + count)) col := by
  rintro ⟨r, hr, he, -⟩
  have := congrArg Fin.val he
  simp only [wrapRow_val] at this
  omega

/-- A sprite of up to 31 rows: the cells it toggles, the collision, the dirty flag. -/
theorem drawRows_spec (m : Memory) (base px py : Nat) (cv : Canvas) (count : Nat) (h : count < 32) :
    (∀ r c, (RowsHit m base px py count r c → cell (drawRows m base px py cv count).fb r c = !cell cv.fb r c) ∧
      (¬ RowsHit m base px py count r c → cell (drawRows m base px py cv count).fb r c = cell cv.fb r c)) ∧
    ((drawRows m base px py cv count).coll = true ↔
      cv.coll = true ∨ ∃ r c, RowsHit m base px py count r c ∧ cell cv.fb r c = true) ∧
    ((drawRows m base px py cv count).dirty = true ↔
      cv.dirty = true ∨ ∃ r c, RowsHit m base px py count r c) := by
  induction count with
  | zero =>
    have hn : ∀ r c, ¬ RowsHit m base px py 0 r c := fun r c ⟨k, hk, _⟩ => absurd hk (Nat.not_lt_zero k)
    simp [drawRows, hn]
  | succ n ih =>
    obtain ⟨ihc, ihcoll, ihd⟩ := ih (by omega)
    have fresh := fun c => RowsHit_fresh m base px py n c (by omega)
    have hsucc := RowsHit_succ m base px py n
    obtain ⟨pc, pcoll, pd⟩ :=
      drawPixels_spec (m.read (base + n)) px (py + n) (drawRows m base px py cv n) 8 (Nat.le_refl 8)
    have hold : ∀ c, cell (drawRows m base px py cv n).fb (wrapRow (py + n)) c = cell cv.fb (wrapRow (py + n)) c :=
      fun c => (ihc _ c).2 (fresh c)
    simp only [drawRows]
    refine ⟨fun r c => ⟨fun hin => ?_, fun hout => ?_⟩, ?_, ?_⟩
    · rcases (hsucc r c).1 hin with h1 | h1
      · have hr : r ≠ wrapRow (py + n) := fun e => fresh c (e ▸ h1)
        rw [(pc r c).2 (fun e => hr e.1), (ihc r c).1 h1]
      · obtain ⟨rfl, h2⟩ := h1
        rw [(pc _ c).1 ⟨rfl, h2⟩, hold c]
    · rw [(pc r c).2 (fun e => hout ((hsucc r c).2 (.inr e))), (ihc r c).2 (fun e => hout ((hsucc r c).2 (.inl e)))]
    · rw [pcoll, ihcoll]
      constructor
      · rintro ((h1 | ⟨r, c, h1, h2⟩) | ⟨c, h1, h2⟩)
        · exact .inl h1
        · exact .inr ⟨r, c, (hsucc r c).2 (.inl h1), h2⟩
        · exact .inr ⟨_, c, (hsucc _ c).2 (.inr ⟨rfl, h1⟩), hold c ▸ h2⟩
      · rintro (h1 | ⟨r, c, h1, h2⟩)
        · exact .inl (.inl h1)
        · rcases (hsucc r c).1 h1 with h3 | ⟨rfl, h3⟩
          · exact .inl (.inr ⟨r, c, h3, h2⟩)
          · exact .inr ⟨c, h3, (hold c).symm ▸ h2⟩
    · rw [pd, ihd]
      constructor
      · rintro ((h1 | ⟨r, c, h1⟩) | ⟨c, h1⟩)
        · exact .inl h1
        · exact .inr ⟨r, c, (hsucc r c).2 (.inl h1)⟩
        · exact .inr ⟨_, c, (hsucc _ c).2 (.inr ⟨rfl, h1⟩)⟩
      · rintro (h1 | ⟨r, c, h1⟩)
        · exact .inl (.inl h1)
        · rcases (hsucc r c).1 h1 with h1 | h1
          · exact .inl (.inr ⟨r, c, h1⟩)
          · exact .inr ⟨c, h1.2⟩

/-- Two framebuffers with the same cells are the same. -/
theorem framebuffer_ext {a b : Framebuffer} (h : ∀ r c, cell a r c = cell b r c) : a = b := by
  apply Vector.ext
  intro i hi
  apply BitVec.eq_of_getLsbD_eq
  intro j hj
  exact h ⟨i, hi⟩ ⟨j, hj⟩

end Sys2Proof.Machine
end

