-- ==== Sys2Proof/Laws/Exec.lean ====
section
/-! SUPPORT. What each instruction can do, said once: `Effect i s t` lists, for every instruction, the one or two next
states it may answer, each with its condition; `exec_effect` is the inversion every frame and invariant is derived from. -/

namespace Sys2Proof.Machine

/-- A skip: `pc` by 2 more under the condition, else nothing. -/
def SkipEffect (c : Prop) (s t : State) : Prop := (c ∧ t = s.setPc (s.pc + 2)) ∨ (¬ c ∧ t = s)

/-- A span access of `n` bytes: `go`, or OutOfBounds and nothing else. -/
def SpanEffect (n : Nat) (go s t : State) : Prop :=
  (s.I.toNat + n ≤ 4096 ∧ t = go) ∨ (4096 < s.I.toNat + n ∧ t = s.withFault .outOfBounds)

/-- The next states of each instruction. -/
def Effect (i : Instr) (s t : State) : Prop :=
  match i with
  | .cls => t = { s with fb := Vector.replicate 32 0, dirty := true }
  | .ret =>
    (s.sp = 0 ∧ t = s.withFault .stackUnderflow) ∨
      (s.sp ≠ 0 ∧ t = { s with sp := s.sp - 1, pc := stackTop s.stack s.sp.toNat })
  | .sys _ =>
    (s.params.sysPolicy = .fault ∧ t = s.withFault .decodeError) ∨ (s.params.sysPolicy = .nop ∧ t = s)
  | .jp nnn => t = s.setPc (zextAddr nnn)
  | .call nnn =>
    (s.sp = 16 ∧ t = s.withFault .stackOverflow) ∨
      (s.sp ≠ 16 ∧
        t = { s with stack := s.stack.setIfInBounds s.sp.toNat s.pc, sp := s.sp + 1, pc := zextAddr nnn })
  | .seImm x kk => SkipEffect (s.reg x = kk) s t
  | .sneImm x kk => SkipEffect (s.reg x ≠ kk) s t
  | .seReg x y => SkipEffect (s.reg x = s.reg y) s t
  | .ldImm x kk => t = s.setReg x kk
  | .addImm x kk => t = s.setReg x (s.reg x + kk)
  | .ldReg x y => t = s.setReg x (s.reg y)
  | .orReg x y => t = s.setReg x (s.reg x ||| s.reg y)
  | .andReg x y => t = s.setReg x (s.reg x &&& s.reg y)
  | .xorReg x y => t = s.setReg x (s.reg x ^^^ s.reg y)
  | .addReg x y => t = s.setResultFlag x (s.reg x + s.reg y) (carryOf (s.reg x) (s.reg y))
  | .subReg x y => t = s.setResultFlag x (s.reg x - s.reg y) (largerOf (s.reg x) (s.reg y))
  | .shr x _ => t = s.setResultFlag x (s.reg x >>> 1) (shiftedOutRight (s.reg x))
  | .subnReg x y => t = s.setResultFlag x (s.reg y - s.reg x) (largerOf (s.reg y) (s.reg x))
  | .shl x _ => t = s.setResultFlag x (s.reg x <<< 1) (shiftedOutLeft (s.reg x))
  | .sneReg x y => SkipEffect (s.reg x ≠ s.reg y) s t
  | .ldI nnn => t = s.setI (zextAddr nnn)
  | .jpV0 nnn => t = s.setPc (zextAddr nnn + zextByte (s.reg 0))
  | .rnd x kk => t = { s with env := s.drawRnd.2 }.setReg x (s.drawRnd.1 &&& kk)
  | .drw x y n =>
    SpanEffect n.toNat
      ({ s with fb := (drawSprite s x y n).fb, dirty := (drawSprite s x y n).dirty }.setReg vf
        (flagByte (drawSprite s x y n).coll)) s t
  | .skp x => SkipEffect (s.keyHeld (lowNibble (s.reg x)) = true) s t
  | .sknp x => SkipEffect (s.keyHeld (lowNibble (s.reg x)) = false) s t
  | .ldVxDT x => t = s.setReg x s.delay
  | .ldVxK x =>
    (s.keypad = 0 ∧ t = s.setPc (s.pc - 2)) ∨ (s.keypad ≠ 0 ∧ t = s.setReg x (lowestKey s.keypad))
  | .ldDTVx x => t = { s with delay := s.reg x }
  | .ldSTVx x => t = { s with sound := s.reg x }
  | .addI x => t = s.setI (s.I + zextByte (s.reg x))
  | .ldF x => t = s.setI (glyphAddr (lowNibble (s.reg x)))
  | .ldB x => SpanEffect 3 { s with mem := s.mem.writeBytes s.I.toNat (bcdDigits (s.reg x)) } s t
  | .ldMemVx x => SpanEffect (x.val + 1) { s with mem := s.mem.writeBytes s.I.toNat (regsUpTo s.V x) } s t
  | .ldVxMem x => SpanEffect (x.val + 1) { s with V := loadRegs s.mem s.I.toNat s.V (x.val + 1) } s t

theorem skipIf_effect (c : Bool) (s : State) : ∃ t, skipIf c s = .next t ∧ SkipEffect (c = true) s t := by
  cases c
  · exact ⟨s, rfl, .inr ⟨by simp, rfl⟩⟩
  · exact ⟨_, rfl, .inl ⟨rfl, rfl⟩⟩

theorem withSpan_effect (s : State) (n : Nat) (go : State) : ∃ t, withSpan s n go = .next t ∧ SpanEffect n go s t := by
  rcases withSpan_cases s n go with ⟨h, e⟩ | ⟨h, e⟩
  · exact ⟨_, e, .inl ⟨h, rfl⟩⟩
  · exact ⟨_, e, .inr ⟨h, rfl⟩⟩

theorem SkipEffect_congr {c d : Prop} (h : c ↔ d) {s t : State} (e : SkipEffect c s t) : SkipEffect d s t := by
  rwa [SkipEffect, ← h]

/-- Every instruction answers a next state, one of those `Effect` lists. -/
theorem exec_next_effect (i : Instr) (s : State) : ∃ t, exec i s = .next t ∧ Effect i s t := by
  cases i with
  | ret =>
    by_cases h : s.sp = 0
    · exact ⟨_, by simp only [exec, execRet, if_pos h, raise], .inl ⟨h, rfl⟩⟩
    · exact ⟨_, by simp only [exec, execRet, if_neg h], .inr ⟨h, rfl⟩⟩
  | call nnn =>
    by_cases h : s.sp = 16
    · exact ⟨_, by simp only [exec, execCall, if_pos h, raise], .inl ⟨h, rfl⟩⟩
    · exact ⟨_, by simp only [exec, execCall, if_neg h], .inr ⟨h, rfl⟩⟩
  | sys nnn =>
    cases h : s.params.sysPolicy
    · exact ⟨_, by simp only [exec, execSys, h, raise], .inl ⟨h, rfl⟩⟩
    · exact ⟨_, by simp only [exec, execSys, h], .inr ⟨h, rfl⟩⟩
  | ldVxK x =>
    by_cases h : s.keypad = 0
    · exact ⟨_, by simp only [exec, execLdVxK, if_pos h], .inl ⟨h, rfl⟩⟩
    · exact ⟨_, by simp only [exec, execLdVxK, if_neg h], .inr ⟨h, rfl⟩⟩
  | seImm x kk => exact (skipIf_effect _ s).imp fun _ h => ⟨h.1, SkipEffect_congr (by simp) h.2⟩
  | sneImm x kk => exact (skipIf_effect _ s).imp fun _ h => ⟨h.1, SkipEffect_congr (by simp) h.2⟩
  | seReg x y => exact (skipIf_effect _ s).imp fun _ h => ⟨h.1, SkipEffect_congr (by simp) h.2⟩
  | sneReg x y => exact (skipIf_effect _ s).imp fun _ h => ⟨h.1, SkipEffect_congr (by simp) h.2⟩
  | skp x => exact skipIf_effect _ s
  | sknp x => exact (skipIf_effect _ s).imp fun _ h => ⟨h.1, SkipEffect_congr (by simp) h.2⟩
  | drw x y n => exact withSpan_effect s _ _
  | ldB x => exact withSpan_effect s _ _
  | ldMemVx x => exact withSpan_effect s _ _
  | ldVxMem x => exact withSpan_effect s _ _
  | _ => exact ⟨_, rfl, rfl⟩

/-- The inversion of `exec`. -/
theorem exec_effect {i : Instr} {s t : State} (h : exec i s = .next t) : Effect i s t := by
  obtain ⟨u, h1, h2⟩ := exec_next_effect i s
  rw [h1] at h
  cases h
  exact h2

end Sys2Proof.Machine
end

