-- ==== Sys2Proof/Laws/PerInstr.lean ====
section
/-! SUPPORT. A fact of every instruction as syntax: its encoded word lies in its row of the opcode table, `op and mask =
match` (30_encoding.md R79). The two columns are written here from the table, not from the encoder. -/

namespace Sys2Proof.Laws

/-- The column "match" of R79. -/
def rowMatch : Instr → Word
  | .cls => 0x00E0#16
  | .ret => 0x00EE#16
  | .sys _ => 0x0000#16
  | .jp _ => 0x1000#16
  | .call _ => 0x2000#16
  | .seImm _ _ => 0x3000#16
  | .sneImm _ _ => 0x4000#16
  | .seReg _ _ => 0x5000#16
  | .ldImm _ _ => 0x6000#16
  | .addImm _ _ => 0x7000#16
  | .ldReg _ _ => 0x8000#16
  | .orReg _ _ => 0x8001#16
  | .andReg _ _ => 0x8002#16
  | .xorReg _ _ => 0x8003#16
  | .addReg _ _ => 0x8004#16
  | .subReg _ _ => 0x8005#16
  | .shr _ _ => 0x8006#16
  | .subnReg _ _ => 0x8007#16
  | .shl _ _ => 0x800E#16
  | .sneReg _ _ => 0x9000#16
  | .ldI _ => 0xA000#16
  | .jpV0 _ => 0xB000#16
  | .rnd _ _ => 0xC000#16
  | .drw _ _ _ => 0xD000#16
  | .skp _ => 0xE09E#16
  | .sknp _ => 0xE0A1#16
  | .ldVxDT _ => 0xF007#16
  | .ldVxK _ => 0xF00A#16
  | .ldDTVx _ => 0xF015#16
  | .ldSTVx _ => 0xF018#16
  | .addI _ => 0xF01E#16
  | .ldF _ => 0xF029#16
  | .ldB _ => 0xF033#16
  | .ldMemVx _ => 0xF055#16
  | .ldVxMem _ => 0xF065#16

/-- The column "mask" of R79. -/
def rowMask : Instr → Word
  | .cls => 0xFFFF#16
  | .ret => 0xFFFF#16
  | .sys _ => 0xF000#16
  | .jp _ => 0xF000#16
  | .call _ => 0xF000#16
  | .seImm _ _ => 0xF000#16
  | .sneImm _ _ => 0xF000#16
  | .seReg _ _ => 0xF00F#16
  | .ldImm _ _ => 0xF000#16
  | .addImm _ _ => 0xF000#16
  | .ldReg _ _ => 0xF00F#16
  | .orReg _ _ => 0xF00F#16
  | .andReg _ _ => 0xF00F#16
  | .xorReg _ _ => 0xF00F#16
  | .addReg _ _ => 0xF00F#16
  | .subReg _ _ => 0xF00F#16
  | .shr _ _ => 0xF00F#16
  | .subnReg _ _ => 0xF00F#16
  | .shl _ _ => 0xF00F#16
  | .sneReg _ _ => 0xF00F#16
  | .ldI _ => 0xF000#16
  | .jpV0 _ => 0xF000#16
  | .rnd _ _ => 0xF000#16
  | .drw _ _ _ => 0xF000#16
  | .skp _ => 0xF0FF#16
  | .sknp _ => 0xF0FF#16
  | .ldVxDT _ => 0xF0FF#16
  | .ldVxK _ => 0xF0FF#16
  | .ldDTVx _ => 0xF0FF#16
  | .ldSTVx _ => 0xF0FF#16
  | .addI _ => 0xF0FF#16
  | .ldF _ => 0xF0FF#16
  | .ldB _ => 0xF0FF#16
  | .ldMemVx _ => 0xF0FF#16
  | .ldVxMem _ => 0xF0FF#16

/-- The word of `i` matches the row of `i`. -/
def RowMatch.Statement (i : Instr) : Prop := encode i &&& rowMask i = rowMatch i

/-- Masking an assembled word masks its parts. -/
theorem encNNN_and (f g : Nibble) (a b : Addr) : encNNN f a &&& encNNN g b = encNNN (f &&& g) (a &&& b) :=
  BitVec.and_append

theorem encXKK_and (f g : Nibble) (x z : Reg) (k l : Byte) :
    encXKK f x k &&& encXKK g z l = encNNN (f &&& g) ((regBits x &&& regBits z) ++ (k &&& l)) := by
  rw [encXKK, encXKK, ← BitVec.and_append]
  exact BitVec.and_append

theorem encXYN_and (f g : Nibble) (x y z w : Reg) (n m : Nibble) :
    encXYN f x y n &&& encXYN g z w m =
      encNNN (f &&& g) ((regBits x &&& regBits z) ++ ((regBits y &&& regBits w) ++ (n &&& m))) := by
  rw [encXYN, encXYN, ← BitVec.and_append, ← BitVec.and_append]
  exact BitVec.and_append

/-- Format NNN: the mask keeps the family. -/
theorem mask_NNN (f : Nibble) (a : Addr) : encNNN f a &&& 0xF000#16 = encNNN f 0#12 := by
  rw [show (0xF000#16 : Word) = encNNN 0xF#4 0#12 from rfl, encNNN_and, BitVec.and_zero,
    show (0xF#4 : Nibble) = BitVec.allOnes 4 from rfl, BitVec.and_allOnes]

/-- Format XKK: the mask keeps the family. -/
theorem mask_XKK (f : Nibble) (x : Reg) (k : Byte) : encXKK f x k &&& 0xF000#16 = encNNN f 0#12 :=
  mask_NNN f (regBits x ++ k)

/-- Format XYN: the mask keeps the family. -/
theorem mask_XYN (f : Nibble) (x y : Reg) (n : Nibble) : encXYN f x y n &&& 0xF000#16 = encNNN f 0#12 :=
  mask_NNN f (regBits x ++ (regBits y ++ n : BitVec 8))

/-- Format XY: the mask keeps the family and the low nibble. -/
theorem mask_XY (f : Nibble) (x y : Reg) (n : Nibble) : encXYN f x y n &&& 0xF00F#16 = encXYN f 0 0 n := by
  rw [show (0xF00F#16 : Word) = encXYN 0xF#4 0 0 0xF#4 from rfl, encXYN_and,
    show (0xF#4 : Nibble) = BitVec.allOnes 4 from rfl, BitVec.and_allOnes, BitVec.and_allOnes,
    show regBits 0 = 0#4 from rfl, BitVec.and_zero, BitVec.and_zero]
  rfl

/-- Format X: the mask keeps the family and the low byte. -/
theorem mask_X (f : Nibble) (x : Reg) (k : Byte) : encXKK f x k &&& 0xF0FF#16 = encXKK f 0 k := by
  rw [show (0xF0FF#16 : Word) = encXKK 0xF#4 0 0xFF#8 from rfl, encXKK_and,
    show (0xF#4 : Nibble) = BitVec.allOnes 4 from rfl, BitVec.and_allOnes,
    show (0xFF#8 : Byte) = BitVec.allOnes 8 from rfl, BitVec.and_allOnes,
    show regBits 0 = 0#4 from rfl, BitVec.and_zero]
  rfl

theorem RowMatch.cls : RowMatch.Statement .cls := rfl
theorem RowMatch.ret : RowMatch.Statement .ret := rfl
theorem RowMatch.sys (nnn : Addr) : RowMatch.Statement (.sys nnn) := mask_NNN 0x0#4 nnn
theorem RowMatch.jp (nnn : Addr) : RowMatch.Statement (.jp nnn) := mask_NNN 0x1#4 nnn
theorem RowMatch.call (nnn : Addr) : RowMatch.Statement (.call nnn) := mask_NNN 0x2#4 nnn
theorem RowMatch.seImm (x : Reg) (kk : Byte) : RowMatch.Statement (.seImm x kk) := mask_XKK 0x3#4 x kk
theorem RowMatch.sneImm (x : Reg) (kk : Byte) : RowMatch.Statement (.sneImm x kk) := mask_XKK 0x4#4 x kk
theorem RowMatch.seReg (x y : Reg) : RowMatch.Statement (.seReg x y) := mask_XY 0x5#4 x y 0x0#4
theorem RowMatch.ldImm (x : Reg) (kk : Byte) : RowMatch.Statement (.ldImm x kk) := mask_XKK 0x6#4 x kk
theorem RowMatch.addImm (x : Reg) (kk : Byte) : RowMatch.Statement (.addImm x kk) := mask_XKK 0x7#4 x kk
theorem RowMatch.ldReg (x y : Reg) : RowMatch.Statement (.ldReg x y) := mask_XY 0x8#4 x y 0x0#4
theorem RowMatch.orReg (x y : Reg) : RowMatch.Statement (.orReg x y) := mask_XY 0x8#4 x y 0x1#4
theorem RowMatch.andReg (x y : Reg) : RowMatch.Statement (.andReg x y) := mask_XY 0x8#4 x y 0x2#4
theorem RowMatch.xorReg (x y : Reg) : RowMatch.Statement (.xorReg x y) := mask_XY 0x8#4 x y 0x3#4
theorem RowMatch.addReg (x y : Reg) : RowMatch.Statement (.addReg x y) := mask_XY 0x8#4 x y 0x4#4
theorem RowMatch.subReg (x y : Reg) : RowMatch.Statement (.subReg x y) := mask_XY 0x8#4 x y 0x5#4
theorem RowMatch.shr (x y : Reg) : RowMatch.Statement (.shr x y) := mask_XY 0x8#4 x y 0x6#4
theorem RowMatch.subnReg (x y : Reg) : RowMatch.Statement (.subnReg x y) := mask_XY 0x8#4 x y 0x7#4
theorem RowMatch.shl (x y : Reg) : RowMatch.Statement (.shl x y) := mask_XY 0x8#4 x y 0xE#4
theorem RowMatch.sneReg (x y : Reg) : RowMatch.Statement (.sneReg x y) := mask_XY 0x9#4 x y 0x0#4
theorem RowMatch.ldI (nnn : Addr) : RowMatch.Statement (.ldI nnn) := mask_NNN 0xA#4 nnn
theorem RowMatch.jpV0 (nnn : Addr) : RowMatch.Statement (.jpV0 nnn) := mask_NNN 0xB#4 nnn
theorem RowMatch.rnd (x : Reg) (kk : Byte) : RowMatch.Statement (.rnd x kk) := mask_XKK 0xC#4 x kk
theorem RowMatch.drw (x y : Reg) (n : Nibble) : RowMatch.Statement (.drw x y n) := mask_XYN 0xD#4 x y n
theorem RowMatch.skp (x : Reg) : RowMatch.Statement (.skp x) := mask_X 0xE#4 x 0x9E#8
theorem RowMatch.sknp (x : Reg) : RowMatch.Statement (.sknp x) := mask_X 0xE#4 x 0xA1#8
theorem RowMatch.ldVxDT (x : Reg) : RowMatch.Statement (.ldVxDT x) := mask_X 0xF#4 x 0x07#8
theorem RowMatch.ldVxK (x : Reg) : RowMatch.Statement (.ldVxK x) := mask_X 0xF#4 x 0x0A#8
theorem RowMatch.ldDTVx (x : Reg) : RowMatch.Statement (.ldDTVx x) := mask_X 0xF#4 x 0x15#8
theorem RowMatch.ldSTVx (x : Reg) : RowMatch.Statement (.ldSTVx x) := mask_X 0xF#4 x 0x18#8
theorem RowMatch.addI (x : Reg) : RowMatch.Statement (.addI x) := mask_X 0xF#4 x 0x1E#8
theorem RowMatch.ldF (x : Reg) : RowMatch.Statement (.ldF x) := mask_X 0xF#4 x 0x29#8
theorem RowMatch.ldB (x : Reg) : RowMatch.Statement (.ldB x) := mask_X 0xF#4 x 0x33#8
theorem RowMatch.ldMemVx (x : Reg) : RowMatch.Statement (.ldMemVx x) := mask_X 0xF#4 x 0x55#8
theorem RowMatch.ldVxMem (x : Reg) : RowMatch.Statement (.ldVxMem x) := mask_X 0xF#4 x 0x65#8

end Sys2Proof.Laws
end

