-- ==== Sys2Proof/Laws/Sequencer.lean ====
section
/-! SUPPORT. What a step can do, said once (inversion), and the sequencer's operations. -/

namespace Sys2Proof.Machine

/-- What a running core's step does: the fetch faults, the decoder faults, or an instruction runs. -/
theorem runInstr_cases (ex : Instr → State → Host.Outcome State Fault Refusal) (s : State) :
    (4095 < s.pc.toNat + 1 ∧ runInstr ex s = .next (s.withFault .outOfBounds)) ∨
    (∃ op r, s.pc.toNat + 1 ≤ 4095 ∧ s.fetch = some op ∧ decode op = .error r ∧
      runInstr ex s = .next (s.advance.withFault .decodeError)) ∨
    (∃ op i, s.pc.toNat + 1 ≤ 4095 ∧ s.fetch = some op ∧ decode op = .ok i ∧
      runInstr ex s = finishInstr i (ex i s.advance)) := by
  by_cases h : 4095 < s.pc.toNat + 1
  · exact .inl ⟨h, by simp only [runInstr, State.fetch_out h, raise]⟩
  · have hf := State.fetch_in (s := s) (by omega)
    right
    cases hd : decode (opcodeOfBytes (s.mem.read s.pc.toNat) (s.mem.read (s.pc.toNat + 1))) with
    | error r => exact .inl ⟨_, r, by omega, hf, hd, by simp only [runInstr, hf, hd, raise]⟩
    | ok i => exact .inr ⟨_, i, by omega, hf, hd, by simp only [runInstr, hf, hd]⟩

/-- A finished instruction: charged when unfaulted, left as it is when a fault was raised. -/
theorem finishInstr_next {i : Instr} {o : Host.Outcome State Fault Refusal} {t : State}
    (h : finishInstr i o = .next t) :
    ∃ u, o = .next u ∧ ((u.fault = none ∧ t = charge i u) ∨ (u.fault ≠ none ∧ t = u)) := by
  cases o with
  | next u =>
    refine ⟨u, rfl, ?_⟩
    cases hf : u.fault with
    | none => simp only [finishInstr, hf] at h; cases h; exact .inl ⟨rfl, rfl⟩
    | some f => simp only [finishInstr, hf] at h; cases h; exact .inr ⟨by simp, rfl⟩
  | fault r => cases h
  | refused r => cases h

/-- The inversion of a step: a reset, or the core's turn. -/
theorem step_cases (s : State) :
    (∃ rest, s.env.hostIn = .rst :: rest ∧ step s = .next (resetWith s.params { s.env with hostIn := rest })) ∨
    ((∀ rest, s.env.hostIn ≠ .rst :: rest) ∧ step s = coreStep exec s.hostTurn) := by
  unfold step sequencerStep
  split
  · next rest h => exact .inl ⟨rest, h, rfl⟩
  · next h => exact .inr ⟨fun rest e => h rest e, rfl⟩

/-- The program load, whole (70_reset_and_hazards.md R235, R237). -/
theorem loadImage_cases (img : List Byte) (s : State) :
    (img.length ≤ 3584 ∧ loadImage img s = { s with mem := s.mem.writeBytes 512 img, phase := .ready }) ∨
    (3584 < img.length ∧ loadImage img s = s.withFault .imageTooLarge) := by
  by_cases h : img.length > Config.maxImage
  · exact .inr ⟨h, by rw [loadImage, if_pos h]⟩
  · exact .inl ⟨by simpa using h, by rw [loadImage, if_neg h]⟩

/-- Every executed instruction's cost is positive (46_frame_sequencer.md R177). -/
theorem Env.drawCost_pos (e : Env) (i : Instr) : 1 ≤ (e.drawCost i).1 := by
  unfold Env.drawCost
  split <;> exact Nat.le_max_left _ _

theorem tickTimer_toNat (t : Byte) : (tickTimer t).toNat = t.toNat - 1 := by
  unfold tickTimer
  split
  · next h => subst h; rfl
  · next h =>
    have h0 : t.toNat ≠ 0 := fun e => h (BitVec.eq_of_toNat_eq (by simpa using e))
    have := t.isLt
    rw [BitVec.toNat_sub, show (1 : Byte).toNat = 1 from rfl]
    omega

/-- FONT is 80 bytes (R42). -/
theorem fontBytes_length (font : Vector (Vector Byte 5) 16) : (fontBytes font).length = 80 := by
  simp only [fontBytes, List.length_flatten, List.map_map]
  have : (List.length ∘ fun g : Vector Byte 5 => g.toList) = fun _ => 5 := by
    funext g
    exact g.length_toList
  rw [this]
  simp

theorem resetMemory_wf (font : Vector (Vector Byte 5) 16) : (resetMemory font).wf :=
  Memory.writeBytes_wf Memory.nil_wf 0 _

/-- The calls left at the head of the host's list are no resets. -/
theorem dropResets_no_rst (l rest : List HostCall) : dropResets l ≠ .rst :: rest := by
  induction l with
  | nil => simp [dropResets]
  | cons c l ih => cases c <;> simp [dropResets, ih]

theorem fetchablePc_le (pc : Word) : (fetchablePc pc).toNat + 1 ≤ 4095 := by
  unfold fetchablePc
  split
  · decide
  · omega

/-- What a placed word's state fetches (log entry 11). -/
theorem placeWord_fetch (s : State) (w : Word) : (placeWord s w).hostTurn.fetch = some w := by
  have h := fetchablePc_le s.pc
  have hpc : (placeWord s w).hostTurn.pc = fetchablePc s.pc := rfl
  have hm : (placeWord s w).hostTurn.mem =
      (s.mem.write (fetchablePc s.pc).toNat (hiByte w)).write ((fetchablePc s.pc).toNat + 1) (loByte w) := rfl
  rw [State.fetch_in (by rw [hpc]; exact h), hpc, hm,
    Memory.read_write_same _ _ (by simp only [Config.memSize]; omega),
    Memory.read_write_other _ _ (by omega), Memory.read_write_same _ _ (by simp only [Config.memSize]; omega)]
  rw [opcodeOfBytes_bytes]

end Sys2Proof.Machine

namespace Sys2Proof

open Machine

/-- A running core's step is one instruction (30_encoding.md R88). -/
theorem Running.step_eq {s : State} (h : Running s) : step s = runInstr exec s.hostTurn := by
  rcases step_cases s with ⟨rest, h1, -⟩ | ⟨-, h2⟩
  · exact absurd h1 (h.no_reset rest)
  · rw [h2, coreStep, State.hostTurn_fault, h.unfaulted, State.hostTurn_phase, h.in_loop]

end Sys2Proof
end

