-- ==== Sys2Proof/Tests/Slice0.lean ====
section
/-! SUPPORT. Tests: the smoke test of WellFormed, one decode of every constructor from a word written out from the spec's
patterns, single steps whose expected values are the vectors of 95_test_vectors.md (each named in its comment), and a
witness for the hypotheses of every statement that has some. -/

namespace Sys2Proof.Tests

open Machine

/-- A core in a frame's instruction loop, every register at reset; the next instruction costs 50 microseconds. -/
def start : State :=
  { State.reset with phase := .running, env := { State.reset.env with costIn := [50] } }

/-- `start` with some registers set. -/
def regs (l : List (Reg × Byte)) : State := l.foldl (fun s p => s.setReg p.1 p.2) start

/-- One step of the machine with the word placed at `pc`, and a check of the next state. -/
def after (s : State) (w : Nat) (p : State → Bool) : Bool :=
  match step (s.withFetchWord 16 w) with
  | .next t => p t
  | _ => false

/-- One step of the machine and a check of the next state. -/
def stepped (s : State) (p : State → Bool) : Bool :=
  match step s with
  | .next t => p t
  | _ => false

/-! ## WellFormed (30_encoding.md R82) -/

theorem test_wellFormed_sys : (Instr.sys 0x123).wellFormed = true := by decide

/-- The word 00E0 is CLS: SYS does not carry it. -/
theorem test_wellFormed_refuses_sys_0E0 : (Instr.sys 0x0E0).wellFormed = false := by decide

/-- The word 00EE is RET: SYS does not carry it. -/
theorem test_wellFormed_refuses_sys_0EE : (Instr.sys 0x0EE).wellFormed = false := by decide

/-! ## Decoding: words written out nibble by nibble from the patterns of R79 -/

theorem test_decode_control :
    decodeTableWord 16 0b0000000011101110 = some .ret ∧
    decodeTableWord 16 0b0000000100100011 = some (.sys 0x123) ∧
    decodeTableWord 16 0b0001001010101000 = some (.jp 0x2A8) ∧
    decodeTableWord 16 0b0010001100000000 = some (.call 0x300) ∧
    decodeTableWord 16 0b1011001100000000 = some (.jpV0 0x300) := by decide

theorem test_decode_skip :
    decodeTableWord 16 0b0011000101000111 = some (.seImm 1 0x47) ∧
    decodeTableWord 16 0b0100001000000111 = some (.sneImm 2 7) ∧
    decodeTableWord 16 0b0101001000110000 = some (.seReg 2 3) ∧
    decodeTableWord 16 0b1001001000110000 = some (.sneReg 2 3) ∧
    decodeTableWord 16 0b1110010010011110 = some (.skp 4) ∧
    decodeTableWord 16 0b1110010010100001 = some (.sknp 4) := by decide

theorem test_decode_load_add :
    decodeTableWord 16 0b0110000000000101 = some (.ldImm 0 5) ∧
    decodeTableWord 16 0b0111000111111111 = some (.addImm 1 0xFF) ∧
    decodeTableWord 16 0b1000001000110000 = some (.ldReg 2 3) := by decide

theorem test_decode_alu :
    decodeTableWord 16 0b1000001000110001 = some (.orReg 2 3) ∧
    decodeTableWord 16 0b1000001000110010 = some (.andReg 2 3) ∧
    decodeTableWord 16 0b1000001000110011 = some (.xorReg 2 3) ∧
    decodeTableWord 16 0b1000001000110100 = some (.addReg 2 3) ∧
    decodeTableWord 16 0b1000001000110101 = some (.subReg 2 3) ∧
    decodeTableWord 16 0b1000101010110110 = some (.shr 10 11) ∧
    decodeTableWord 16 0b1000001000110111 = some (.subnReg 2 3) ∧
    decodeTableWord 16 0b1000001000111110 = some (.shl 2 3) := by decide

theorem test_decode_index_memory :
    decodeTableWord 16 0b1010001100000000 = some (.ldI 0x300) ∧
    decodeTableWord 16 0b1111001000011110 = some (.addI 2) ∧
    decodeTableWord 16 0b1111001000101001 = some (.ldF 2) ∧
    decodeTableWord 16 0b1111001000110011 = some (.ldB 2) ∧
    decodeTableWord 16 0b1111001001010101 = some (.ldMemVx 2) ∧
    decodeTableWord 16 0b1111001001100101 = some (.ldVxMem 2) := by decide

theorem test_decode_timer_key_random :
    decodeTableWord 16 0b1111001100000111 = some (.ldVxDT 3) ∧
    decodeTableWord 16 0b1111001100001010 = some (.ldVxK 3) ∧
    decodeTableWord 16 0b1111001100010101 = some (.ldDTVx 3) ∧
    decodeTableWord 16 0b1111001100011000 = some (.ldSTVx 3) ∧
    decodeTableWord 16 0b1100000100001111 = some (.rnd 1 0x0F) := by decide

theorem test_decode_display :
    decodeTableWord 16 0b0000000011100000 = some .cls ∧
    decodeTableWord 16 0b1101000100100101 = some (.drw 1 2 5) := by decide

/-- Vectors E6 to E11: illegal words, each under its own name. -/
theorem test_decode_rejects :
    decodeBytes [0x51, 0x21] = .error .noSuchSub5 ∧ decodeBytes [0x81, 0x28] = .error .noSuchSub8 ∧
    decodeBytes [0x91, 0x2F] = .error .noSuchSub9 ∧ decodeBytes [0xE1, 0x9F] = .error .noSuchSubE ∧
    decodeBytes [0xF1, 0xFF] = .error .noSuchSubF ∧ decodeBytes [0xF1, 0x75] = .error .noSuchSubF ∧
    decodeBytes [0xF1] = .error .truncated := ⟨rfl, rfl, rfl, rfl, rfl, rfl, rfl⟩

/-! ## The step -/

/-- Vector E3: SYS under the default policy faults after the `pc` advance. -/
theorem test_sys_faults :
    after start 0x0000 (fun t => t.fault == some .decodeError && t.pc == 0x202) = true := by decide

/-- Vector E4: SYS under the policy `nop`. -/
theorem test_sys_nop :
    after { start with params := { paramsDefault with sysPolicy := .nop } } 0x0000
      (fun t => t.fault == none && t.pc == 0x202) = true := by decide

/-- Vector E7: an illegal opcode. -/
theorem test_illegal :
    after start 0x8128 (fun t => t.fault == some .decodeError && t.pc == 0x202) = true := by decide

/-- Vector E15: a fetch past the end leaves `pc`. -/
theorem test_fetch_past_end :
    stepped { start with pc := 4095 } (fun t => t.fault == some .outOfBounds && t.pc == 4095) = true := by decide

/-- Vector E16: a fetch of the last two bytes, and a skip past the end without a fault. -/
theorem test_fetch_last :
    after { start with pc := 4094 } 0x3000 (fun t => t.fault == none && t.pc == 4098) = true := by decide

/-- Vector E17: an odd `pc`. -/
theorem test_fetch_odd :
    after { start with pc := 0x201 } 0x6007 (fun t => t.reg 0 == 7 && t.pc == 0x203) = true := by decide

/-! ## Control flow -/

/-- Vector C1. -/
theorem test_jp : after start 0x12A8 (fun t => t.pc == 0x2A8) = true := by decide

/-- Vector C4: not reduced to 12 bits. -/
theorem test_jpV0 : after (regs [(0, 0xFF)]) 0xBFFF (fun t => t.pc == 0x10FE && t.fault == none) = true := by decide

/-- Vector C8: the sixteenth entry. -/
theorem test_call :
    after { start with sp := 15 } 0x2300 (fun t => t.stack[15] == 0x202 && t.sp == 16 && t.pc == 0x300) = true := by
  decide

/-- Vector C7. -/
theorem test_call_overflow :
    after { start with sp := 16 } 0x2300
      (fun t => t.fault == some .stackOverflow && t.sp == 16 && t.pc == 0x202) = true := by decide

/-- Vector C5, its second step. -/
theorem test_ret :
    after { start with sp := 1, stack := start.stack.set 0 0x202, pc := 0x300 } 0x00EE
      (fun t => t.sp == 0 && t.pc == 0x202) = true := by decide

/-- Vector C6. -/
theorem test_ret_underflow :
    after start 0x00EE (fun t => t.fault == some .stackUnderflow && t.sp == 0 && t.pc == 0x202) = true := by decide

/-! ## Skips -/

/-- Vectors K1, K2. -/
theorem test_seImm :
    after start 0x3100 (fun t => t.pc == 0x204) = true ∧
    after (regs [(1, 4)]) 0x3100 (fun t => t.pc == 0x202) = true := by decide

/-- Vectors K3, K4. -/
theorem test_sneImm :
    after (regs [(0, 7)]) 0x4007 (fun t => t.pc == 0x202) = true ∧
    after (regs [(0, 8)]) 0x4007 (fun t => t.pc == 0x204) = true := by decide

/-- Vectors K5, K6. -/
theorem test_seReg :
    after (regs [(2, 9), (3, 9)]) 0x5230 (fun t => t.pc == 0x204) = true ∧
    after (regs [(2, 9), (3, 8)]) 0x5230 (fun t => t.pc == 0x202) = true := by decide

/-- Vectors K8, K9. -/
theorem test_sneReg :
    after (regs [(2, 9), (3, 8)]) 0x9230 (fun t => t.pc == 0x204) = true ∧
    after start 0x9AA0 (fun t => t.pc == 0x202) = true := by decide

/-- Vectors K11, K14: the key is the low nibble. -/
theorem test_skp :
    after { regs [(4, 6)] with keypad := 0x0020 } 0xE49E (fun t => t.pc == 0x202) = true ∧
    after { regs [(0, 0x15)] with keypad := 0x0020 } 0xE09E (fun t => t.pc == 0x204) = true := by decide

/-- Vectors K12, K13. -/
theorem test_sknp :
    after { regs [(4, 5)] with keypad := 0x0020 } 0xE4A1 (fun t => t.pc == 0x202) = true ∧
    after { regs [(4, 6)] with keypad := 0x0020 } 0xE4A1 (fun t => t.pc == 0x204) = true := by decide

/-! ## Loads and arithmetic -/

/-- Vector A1. -/
theorem test_ldImm : after start 0x6005 (fun t => t.reg 0 == 5) = true := by decide

/-- Vectors A3, A4: no flag, VF as any register. -/
theorem test_addImm :
    after (regs [(0, 0xFF), (15, 1)]) 0x7001 (fun t => t.reg 0 == 0 && t.reg 15 == 1) = true ∧
    after (regs [(15, 0xFF)]) 0x7F02 (fun t => t.reg 15 == 1) = true := by decide

/-- Vector A5. -/
theorem test_ldReg : after (regs [(3, 0x2A)]) 0x8230 (fun t => t.reg 2 == 0x2A) = true := by decide

/-- Vector A21: VF untouched. -/
theorem test_or :
    after (regs [(0, 0x0F), (1, 0xF0), (15, 1)]) 0x8011 (fun t => t.reg 0 == 0xFF && t.reg 15 == 1) = true := by
  decide

/-- Vector A22. -/
theorem test_and : after (regs [(0, 0x3C), (1, 0x0F)]) 0x8012 (fun t => t.reg 0 == 0x0C) = true := by decide

/-- Vector A23. -/
theorem test_xor : after (regs [(0, 0xFF), (1, 0x0F)]) 0x8013 (fun t => t.reg 0 == 0xF0) = true := by decide

/-- Vectors A6, A9. -/
theorem test_addReg :
    after (regs [(0, 200), (1, 100)]) 0x8014 (fun t => t.reg 0 == 44 && t.reg 15 == 1) = true ∧
    after (regs [(0, 100), (1, 155)]) 0x8014 (fun t => t.reg 0 == 255 && t.reg 15 == 0) = true := by decide

/-- Vectors A24, A26: VF as destination and as source. -/
theorem test_addReg_vf :
    after (regs [(15, 200)]) 0x8FF4 (fun t => t.reg 15 == 1) = true ∧
    after (regs [(0, 250), (15, 10)]) 0x80F4 (fun t => t.reg 0 == 4 && t.reg 15 == 1) = true := by decide

/-- Vectors A10, A12: equal operands clear the flag. -/
theorem test_subReg :
    after (regs [(0, 5), (1, 7)]) 0x8015 (fun t => t.reg 0 == 254 && t.reg 15 == 0) = true ∧
    after (regs [(1, 7), (2, 7)]) 0x8125 (fun t => t.reg 1 == 0 && t.reg 15 == 0) = true := by decide

/-- Vectors A14, A15. -/
theorem test_subnReg :
    after (regs [(0, 5), (1, 7)]) 0x8017 (fun t => t.reg 0 == 2 && t.reg 15 == 1) = true ∧
    after (regs [(0, 7), (1, 5)]) 0x8017 (fun t => t.reg 0 == 254 && t.reg 15 == 0) = true := by decide

/-- Vectors A17, A18: `y` is not used. -/
theorem test_shr :
    after (regs [(2, 0x05)]) 0x8206 (fun t => t.reg 2 == 0x02 && t.reg 15 == 1) = true ∧
    after (regs [(2, 0x04), (3, 0xFF)]) 0x8236
      (fun t => t.reg 2 == 0x02 && t.reg 15 == 0 && t.reg 3 == 0xFF) = true := by decide

/-- Vectors A19, A20. -/
theorem test_shl :
    after (regs [(2, 0x81)]) 0x820E (fun t => t.reg 2 == 0x02 && t.reg 15 == 1) = true ∧
    after (regs [(2, 0x40)]) 0x820E (fun t => t.reg 2 == 0x80 && t.reg 15 == 0) = true := by decide

/-! ## Index and memory -/

/-- Vector M1. -/
theorem test_ldI : after start 0xA300 (fun t => t.I == 0x300) = true := by decide

/-- Vectors M3, M4: modulo 65536, no flag at 4096. -/
theorem test_addI :
    after { regs [(0, 1)] with I := 0xFFFF } 0xF01E (fun t => t.I == 0) = true ∧
    after { regs [(0, 1), (15, 5)] with I := 0xFFF } 0xF01E
      (fun t => t.I == 0x1000 && t.reg 15 == 5 && t.fault == none) = true := by decide

/-- Vectors M5, M6. -/
theorem test_ldF :
    after (regs [(0, 5)]) 0xF029 (fun t => t.I == 25) = true ∧
    after (regs [(0, 0x1A)]) 0xF029 (fun t => t.I == 50) = true := by decide

/-- Vector M8: the last three bytes. -/
theorem test_ldB :
    after { regs [(0, 255)] with I := 4093 } 0xF033
      (fun t => t.mem.read 4093 == 2 && t.mem.read 4094 == 5 && t.mem.read 4095 == 5 && t.fault == none) = true := by
  decide

/-- Vector M9: one byte further, nothing stored. -/
theorem test_ldB_out :
    after { regs [(0, 255)] with I := 4094 } 0xF033
      (fun t => t.mem.read 4094 == 0 && t.fault == some .outOfBounds && t.pc == 0x202) = true := by decide

/-- Vector M13: inclusive of `x`, no further, `I` unchanged. -/
theorem test_ldMemVx :
    after { regs [(0, 1), (1, 2), (2, 3), (3, 9)] with I := 0x400 } 0xF255
      (fun t => t.mem.read 0x400 == 1 && t.mem.read 0x401 == 2 && t.mem.read 0x402 == 3 && t.mem.read 0x403 == 0 &&
        t.I == 0x400) = true := by decide

/-- Vector M12. -/
theorem test_ldMemVx_out :
    after { regs [(0, 1)] with I := 4081 } 0xFF55
      (fun t => t.mem.read 4081 == 0 && t.fault == some .outOfBounds) = true := by decide

/-- Vector M14. -/
theorem test_ldVxMem :
    after { start with I := 0x300, mem := Memory.writeBytes [] 0x300 [2, 5, 4, 9] } 0xF265
      (fun t => t.reg 0 == 2 && t.reg 1 == 5 && t.reg 2 == 4 && t.reg 3 == 0 && t.I == 0x300) = true := by decide

/-- Vector M17: no wrap to address 0. -/
theorem test_ldVxMem_out :
    after { start with I := 0xFFFF } 0xF065 (fun t => t.reg 0 == 0 && t.fault == some .outOfBounds) = true := by decide

/-! ## Timers, keys, random -/

/-- Vector T1. -/
theorem test_ldVxDT :
    after { start with delay := 0x3B } 0xF307 (fun t => t.reg 3 == 0x3B && t.delay == 0x3B) = true := by decide

/-- Vector T2. -/
theorem test_ldDTVx : after (regs [(0, 60)]) 0xF015 (fun t => t.delay == 60 && t.sound == 0) = true := by decide

/-- Vector T3. -/
theorem test_ldSTVx : after (regs [(5, 4)]) 0xF518 (fun t => t.sound == 4 && t.delay == 0) = true := by decide

/-- Vectors T4, T5b. -/
theorem test_ldVxK :
    after { start with keypad := 0x0018 } 0xF00A (fun t => t.reg 0 == 3 && t.pc == 0x202) = true ∧
    after { start with keypad := 0x8000 } 0xF00A (fun t => t.reg 0 == 15 && t.pc == 0x202) = true := by decide

/-- Vector T5: no key, the same instruction again. -/
theorem test_ldVxK_waits : after (regs [(0, 9)]) 0xF00A (fun t => t.reg 0 == 9 && t.pc == 0x200) = true := by decide

/-- Vector T9. -/
theorem test_rnd :
    after { start with env := { start.env with rndIn := [0xA7, 0xFF] } } 0xC10F
      (fun t => t.reg 1 == 0x07 && t.env.rndIn == [0xFF]) = true := by decide

/-! ## Display -/

/-- The rows listed hold these words, the others are clear. -/
def screenIs (t : State) (l : List (Fin 32 × BitVec 64)) : Bool :=
  (List.finRange 32).all fun r => t.fb[r.val] == ((l.find? fun p => p.1 == r).map Prod.snd).getD 0

/-- Vector G12. -/
theorem test_cls :
    after { regs [(15, 7)] with fb := start.fb.set 3 0xFF } 0x00E0
      (fun t => screenIs t [] && t.dirty && t.reg 15 == 7) = true := by decide

/-- Vector G3: wrap at both edges, columns 63 and 0 of rows 31 and 0. -/
theorem test_drw_wraps :
    after { regs [(0, 63), (1, 31)] with I := 0x300, mem := Memory.writeBytes [] 0x300 [0xC0, 0xC0] } 0xD012
      (fun t => screenIs t [(31, 0x8000000000000001), (0, 0x8000000000000001)] && t.reg 15 == 0 && t.dirty) = true := by
  decide

/-- Vector G5: one cell erased, VF is 1. -/
theorem test_drw_collides :
    after { start with fb := start.fb.set 0 0x18, I := 0x300, mem := Memory.writeBytes [] 0x300 [0xF0] } 0xD011
      (fun t => screenIs t [(0, 0x17)] && t.reg 15 == 1 && t.dirty) = true := by decide

/-! ## The frame, reset and load -/

/-- Vectors T6, T7: the tick, and the tone of the ticked `sound`. -/
theorem test_frame_end :
    stepped { start with phase := .ending, sound := 1 }
      (fun t => t.delay == 0 && t.sound == 0 && (t.output.map FrameOutput.tone) == some false) = true ∧
    stepped { start with phase := .ending, delay := 2, sound := 3 }
      (fun t => t.delay == 1 && t.sound == 2 && (t.output.map FrameOutput.tone) == some true) = true := by decide

/-- The example of S8: a cost of 20000 microseconds ends the frame at once. -/
theorem test_budget :
    after { start with env := { start.env with costIn := [20000] } } 0x6005
      (fun t => t.elapsed == 20000 && t.phase == .ending) = true := by decide

/-- R175, R176: a cost of 50 goes on. -/
theorem test_budget_left : after start 0x6005 (fun t => t.elapsed == 50 && t.phase == .running) = true := by decide

/-- R23, R230: a reset in the midst of a frame, after a fault. -/
theorem test_reset :
    stepped { regs [(0, 9)] with pc := 0x300, fault := some .decodeError, env := { start.env with hostIn := [.rst] } }
      (fun t => t.pc == 512 && t.reg 0 == 0 && t.fault == none && t.phase == .awaitLoad) = true := by decide

/-- R235: the load of program P1's image, R171: a frame's start. -/
theorem test_load_then_frame :
    stepped { State.reset with env := { State.reset.env with hostIn := [.load [0x00, 0xE0, 0x60]] } }
      (fun t => t.mem.read 512 == 0 && t.mem.read 513 == 0xE0 && t.mem.read 514 == 0x60 && t.phase == .ready) = true ∧
    stepped { start with phase := .ready, elapsed := 7, env := { start.env with hostIn := [.frame 0x0240] } }
      (fun t => t.keypad == 0x0240 && t.elapsed == 0 && t.phase == .running) = true := by decide

/-! ## Witnesses: for each statement with hypotheses, a state and operands that meet all of them, clause by clause -/

theorem start_running : Running start := ⟨rfl, rfl, nofun⟩

/-- `start` with the host about to make these calls. -/
def hosted (s : State) (calls : List HostCall) : State := { s with env := { s.env with hostIn := calls } }

theorem witness_DecodeOfEncode : (Instr.sys 0x123).wellFormed = true ∧ (Instr.drw 15 0 15).wellFormed = true := by
  decide

theorem witness_EncodeOfDecode : decode 0x8AB6 = .ok (.shr 10 11) ∧ decode 0x00E1 = .ok (.sys 0x0E1) := ⟨rfl, rfl⟩

theorem witness_SysFollowsPolicy :
    ((0x0E1#12 ≠ 0x0E0#12 ∧ 0x0E1#12 ≠ 0x0EE#12) ∧ start.params.sysPolicy = .fault) ∧
    (Params.mk .nop 16666 fontDefault).sysPolicy = .nop := by decide

theorem witness_RetPopsStack :
    start.sp = 0 ∧ ({ start with sp := 1 } : State).sp.toNat = (0 : Fin 16).val + 1 ∧
    ({ start with sp := 16 } : State).sp.toNat = (15 : Fin 16).val + 1 := by decide

theorem witness_CallPushesReturnAddress :
    ({ start with sp := 16 } : State).sp = 16 ∧ start.sp.toNat = (0 : Fin 16).val ∧
    ({ start with sp := 15 } : State).sp.toNat = (15 : Fin 16).val := by decide

theorem witness_CallThenRetRestoresPc : start.sp.toNat < 16 ∧ ∃ t, exec (.call 0x300) start = .next t :=
  ⟨by decide, _, rfl⟩

theorem witness_KeySkipsTestLowNibble :
    ((regs [(0, 0x15)]).reg 0).extractLsb' 0 4 = BitVec.ofFin (5 : Fin 16) ∧
    ((regs [(0, 0xFF)]).reg 0).extractLsb' 0 4 = BitVec.ofFin (15 : Fin 16) := by decide

theorem witness_BcdStoresDigits :
    ({ start with I := 4093 } : State).I.toNat + 3 ≤ 4096 ∧ 4096 < ({ start with I := 4094 } : State).I.toNat + 3 := by
  decide

theorem witness_BlockTransfers :
    ({ start with I := 4080 } : State).I.toNat + (15 : Reg).val + 1 ≤ 4096 ∧
    4096 < ({ start with I := 4081 } : State).I.toNat + (15 : Reg).val + 1 := by decide

theorem witness_KeyWaitLoadsLowestKey :
    start.keypad = 0 ∧ ({ start with keypad := 0x8000 } : State).keypad ≠ 0 := by decide

theorem witness_RndMasksInputByte :
    ({ start.env with rndIn := [0xA7] } : Env).rndIn = 0xA7 :: [] ∧ start.env.rndIn = [] := by decide

/-- Both span clauses at their boundaries; a lit, an unlit and an erased cell. -/
theorem witness_DrawTogglesSpriteCells :
    (({ start with I := 4081 } : State).I.toNat + (15 : Nibble).toNat ≤ 4096 ∧
      ({ start with I := 4096 } : State).I.toNat + (0 : Nibble).toNat ≤ 4096 ∧
      4096 < ({ start with I := 4097 } : State).I.toNat + (0 : Nibble).toNat) ∧
    SpriteLights start 0 0 1 0 0 ∧ ¬ SpriteLights start 0 0 1 0 8 ∧
    (SpriteLights { start with fb := start.fb.set 0 1 } 0 0 1 0 0 ∧ cell (start.fb.set 0 1) 0 0 = true) := by
  refine ⟨by decide, ⟨0, 0, by decide⟩, ?_, ⟨0, 0, by decide⟩, by decide⟩
  rintro ⟨r, c, -, hc, -, h, -⟩
  have : (start.reg 0).toNat = 0 := rfl
  simp only [this] at h
  have : ((8 : Fin 64)).val = 8 := rfl
  omega

theorem witness_DrawDirtyIffNonzeroByte :
    start.I.toNat + (5 : Nibble).toNat ≤ 4096 ∧ start.mem.read (start.I.toNat + 4) ≠ 0 := by decide

theorem witness_DrawTwiceRestoresScreen :
    ((1 : Reg) ≠ 15 ∧ (2 : Reg) ≠ 15 ∧ start.I.toNat + (5 : Nibble).toNat ≤ 4096) ∧
    ∃ t, exec (.drw 1 2 5) start = .next t := ⟨by decide, _, rfl⟩

theorem witness_FaultingInstructionOnlyRecords :
    start.fault = none ∧ ∃ t, exec .ret start = .next t ∧ t.fault = some .stackUnderflow := ⟨rfl, _, rfl, rfl⟩

theorem witness_FaultsExactlyWhenListed :
    start.fault = none ∧ start.params.sysPolicy = .fault ∧ 4096 < ({ start with I := 4094 } : State).I.toNat + 3 ∧
    4096 < ({ start with I := 4082 } : State).I.toNat + (14 : Reg).val + 1 ∧
    4096 < ({ start with I := 4092 } : State).I.toNat + (5 : Nibble).toNat ∧
    ({ start with sp := 16 } : State).sp = 16 ∧ start.sp = 0 := by decide

theorem witness_RegistersOtherwiseKept :
    (∃ t, exec (.addReg 0 1) start = .next t ∧ ¬ WritesReg (.addReg 0 1) 2) ∧
    ∃ t, exec (.drw 0 0 5) start = .next t ∧ start.I.toNat + (5 : Nibble).toNat ≤ 4096 :=
  ⟨⟨_, rfl, by simp [WritesReg]⟩, _, rfl, by decide⟩

theorem witness_OnlyTwoInstructionsStore :
    ∃ t, exec (.ldVxMem 3) start = .next t ∧ (∀ x, Instr.ldVxMem 3 ≠ .ldB x) ∧ ∀ x, Instr.ldVxMem 3 ≠ .ldMemVx x :=
  ⟨_, rfl, nofun, nofun⟩

theorem witness_OnlyCallAndRetTouchStack :
    ∃ t, exec (.jp 0x300) start = .next t ∧ (∀ nnn, Instr.jp 0x300 ≠ .call nnn) ∧ Instr.jp 0x300 ≠ .ret :=
  ⟨_, rfl, nofun, nofun⟩

theorem witness_TimerAndScreenWriters :
    (∃ t, exec (.ldVxDT 1) start = .next t) ∧ (∀ x, Instr.ldVxDT 1 ≠ .ldDTVx x) ∧
    ({ start with dirty := true } : State).dirty = true := ⟨⟨_, rfl⟩, nofun, rfl⟩

theorem witness_IndexAndPcWriters :
    ∃ t, exec .cls start = .next t ∧ (∀ nnn, Instr.cls ≠ .ldI nnn) ∧ Instr.cls ≠ .ret :=
  ⟨_, rfl, nofun, nofun⟩

theorem witness_SequencerStateUntouched : ∃ t, exec (.rnd 1 0x0F) start = .next t := ⟨_, rfl⟩

theorem witness_FetchIsBigEndian : ∃ op, ({ start with pc := 4094 } : State).fetch = some op := ⟨_, rfl⟩

theorem witness_FetchPastEndFaults :
    Running { start with pc := 4095 } ∧ 4095 < ({ start with pc := 4095 } : State).pc.toNat + 1 :=
  ⟨⟨rfl, rfl, nofun⟩, by decide⟩

theorem witness_StepRunsDecodedInstruction :
    (Running { start with pc := 4094 } ∧ ({ start with pc := 4094 } : State).pc.toNat + 1 ≤ 4095 ∧
      decodeBytes [start.mem.read 4094, start.mem.read 4095] = .ok (.sys 0, [])) ∧
    (Running (start.withFetchWord 16 0x8128) ∧
      decodeBytes [(start.withFetchWord 16 0x8128).mem.read 512, (start.withFetchWord 16 0x8128).mem.read 513] =
        .error .noSuchSub8) :=
  ⟨⟨⟨rfl, rfl, nofun⟩, by decide, rfl⟩, ⟨rfl, rfl, nofun⟩, rfl⟩

/-- An illegal opcode at `pc`, and a SYS opcode (the zeros that reset leaves at 512). -/
theorem witness_IllegalOpcodeRaisesDecodeError :
    (Running (start.withFetchWord 16 0x8128) ∧ (start.withFetchWord 16 0x8128).fetch = some 0x8128 ∧
      IllegalOpcode 0x8128) ∧
    (Running start ∧ start.fetch = some 0 ∧ SysOpcode 0 ∧ start.params.sysPolicy = .fault) :=
  ⟨⟨⟨rfl, rfl, nofun⟩, by decide, .inr (.inl (by decide))⟩,
    ⟨start_running, by decide, ⟨by decide, by decide, by decide⟩, rfl⟩⟩

/-- One opcode of each illegal family, and one that is not illegal. -/
theorem witness_DecoderRejectsExactlyIllegal :
    IllegalOpcode 0x5121 ∧ IllegalOpcode 0x8128 ∧ IllegalOpcode 0x912F ∧ IllegalOpcode 0xE19F ∧
    IllegalOpcode 0xF1FF ∧ ¬ IllegalOpcode 0x0000 := by
  refine ⟨.inl (by decide), .inr (.inl (by decide)), .inr (.inr (.inl (by decide))),
    .inr (.inr (.inr (.inl (by decide)))), .inr (.inr (.inr (.inr (by decide)))), ?_⟩
  rintro (h | h | h | h | h) <;> exact absurd h.1 (by decide)

theorem witness_CostChargedAndLoopTested : start.env.costIn = 50 :: [] ∧ 1 ≤ 50 := by decide

theorem witness_PlacedWordRunsNext : decodeTableWord 16 0x6005 = some (.ldImm 0 5) := by decide

theorem witness_StoreSeenByNextFetch :
    ∃ t, exec (.ldMemVx 1) { start with I := 0x200 } = .next t ∧
      ({ start with I := 0x200 } : State).I.toNat + (1 : Reg).val + 1 ≤ 4096 ∧
      ({ start with I := 0x200 } : State).pc.toNat = ({ start with I := 0x200 } : State).I.toNat + (0 : Reg).val ∧
      (1 : Reg).val = (0 : Reg).val + 1 ∧ (1 : Reg) ≤ 1 := ⟨_, rfl, by decide⟩

theorem witness_FrameStartLatchesKeys :
    let s := hosted { start with phase := .ready } [.frame 0x0240]
    s.fault = none ∧ s.phase = .ready ∧ s.env.hostIn = .frame 0x0240 :: [] := ⟨rfl, rfl, rfl⟩

theorem witness_FrameEndTicksAndPresents :
    let s : State := { start with phase := .ending, sound := 1 }
    s.fault = none ∧ s.phase = .ending ∧ ∀ rest, s.env.hostIn ≠ .rst :: rest := ⟨rfl, rfl, nofun⟩

theorem witness_FrameEndsWithinBudget : Running start ∧ ∀ c ∈ start.env.hostIn, c ≠ .rst :=
  ⟨start_running, nofun⟩

/-- Each of the three cases of the statement: a frame start, a reset, neither. -/
theorem witness_KeypadChangesOnlyAtFrameStart :
    stepped (hosted { start with phase := .ready } [.frame 0x0240]) (fun t => t.keypad == 0x0240) = true ∧
    stepped (hosted { start with keypad := 1 } [.rst]) (fun t => t.keypad == 0) = true ∧
    stepped { start with keypad := 1, phase := .ending } (fun t => t.keypad == 1) = true := by decide

theorem witness_HaltedCoreStops :
    let s : State := { start with fault := some .outOfBounds }
    s.fault = some .outOfBounds ∧ s.env.hostIn = [] ∧ (hosted s [.frame 1]).env.hostIn = .frame 1 :: [] :=
  ⟨rfl, rfl, rfl⟩

theorem witness_HaltedCoreKeepsState :
    let s := hosted { start with fault := some .outOfBounds } [.frame 1]
    s.fault ≠ none ∧ (∀ c ∈ s.env.hostIn, c ≠ .rst) ∧ ∃ t, Host.Core.run core 1 s = .next t :=
  ⟨by decide, by decide, _, rfl⟩

theorem witness_ResetAtAnyTime : (hosted start [.rst]).env.hostIn = .rst :: [] := rfl

/-- An empty image, and one a byte too long. -/
theorem witness_ProgramLoadCopiesImage :
    let s := fun img => hosted State.reset [.load img]
    ((s []).fault = none ∧ (s []).phase = .awaitLoad ∧ (s []).env.hostIn = .load [] :: []) ∧
    ([] : List Byte).length ≤ 3584 ∧ (List.replicate 3584 (0 : Byte)).length ≤ 3584 ∧
    3584 < (List.replicate 3585 (0 : Byte)).length :=
  ⟨⟨rfl, rfl, rfl⟩, Nat.zero_le _, by rw [List.length_replicate], by rw [List.length_replicate]; decide⟩

theorem witness_OutOfOrderHostCallsRefused :
    (State.reset.fault = none ∧ State.reset.phase = .awaitLoad ∧
      (hosted State.reset [.frame 0]).env.hostIn = .frame 0 :: []) ∧
    (let s := hosted { start with phase := .ready } [.load []]
     s.fault = none ∧ s.phase = .ready ∧ s.env.hostIn = .load [] :: []) ∧
    (let s := hosted { start with fault := some .decodeError } [.load []]
     s.fault ≠ none ∧ s.env.hostIn = .load [] :: []) := ⟨⟨rfl, rfl, rfl⟩, ⟨rfl, rfl, rfl⟩, by decide, rfl⟩

theorem witness_ParametersNeverChange : ∃ t, step { start with phase := .ending } = .next t := ⟨_, rfl⟩

theorem witness_RunningStateNeverRecurs : Running start ∧ ∃ t, Host.Core.run core 1 start = .next t :=
  ⟨start_running, _, rfl⟩

theorem witness_StepKeepsInvariant : Inv State.reset ∧ ∃ t, step State.reset = .next t :=
  ⟨⟨by decide, by decide, by decide, fun _ h => absurd h (Nat.not_lt_zero _)⟩, _, rfl⟩

end Sys2Proof.Tests
end

section
/-! The reset values (10_state.md R44): what the glyph table holds at each address, and the reset state field by field. -/

namespace Sys2Proof.Machine

/-- Byte `5d + r` of the glyph table is row `r` of glyph `d` (10_state.md R42). -/
theorem fontByte_glyph (font : Vector (Vector Byte 5) 16) (d : Fin 16) (r : Fin 5) :
    fontByte font (5 * d.val + r.val) = font[d.val][r.val] := by
  have hlt : 5 * d.val + r.val < Config.fontLen := by simp only [Config.fontLen]; omega
  have hglyph : (5 * d.val + r.val) / 5 = d.val := by omega
  have hrow : (5 * d.val + r.val) % 5 = r.val := by omega
  simp only [fontByte, dif_pos hlt, hglyph, hrow]

/-- The glyph table ends at address 79. -/
theorem fontByte_past (font : Vector (Vector Byte 5) 16) {a : Nat} (h : 80 ≤ a) : fontByte font a = 0 :=
  dif_neg (Nat.not_lt.mpr h)

end Sys2Proof.Machine

namespace Sys2Proof

open Machine

/-- Memory alone decides whether the reset state, under any parameters and whatever comes from outside, is at its reset
values: the other fields are. -/
theorem atReset_of_mem {m : Memory} {p : Params} (e : Env)
    (hfont : ∀ d : Fin 16, ∀ r : Fin 5, m.read (5 * d.val + r.val) = p.font[d.val][r.val])
    (hzero : ∀ a, 80 ≤ a → a ≤ 4095 → m.read a = 0) :
    AtReset { State.reset with mem := m, params := p, env := e } where
  V x := Vector.getElem_replicate x.isLt
  I := rfl
  pc := rfl
  sp := rfl
  stack k := Vector.getElem_replicate k.isLt
  delay := rfl
  sound := rfl
  keypad := rfl
  fb row col := by
    have hrow : State.reset.fb[row.val] = 0 := Vector.getElem_replicate row.isLt
    simp only [cell, hrow, BitVec.ofNat_eq_ofNat, BitVec.getLsbD_zero]
  dirty := rfl
  fault := rfl
  elapsed := rfl
  font := hfont
  mem := hzero

/-- Settles O52: memory lists no byte at reset, so every address reads as the default glyph table or 0. -/
theorem resetValues : Obligations.ResetValues :=
  atReset_of_mem State.reset.env (fun d r => fontByte_glyph fontDefault d r)
    (fun _ hlow _ => fontByte_past fontDefault hlow)

end Sys2Proof
end

section
/-! CLS (45_display.md R160): the blank framebuffer has no lit cell, and CLS puts it in place whatever was shown. -/

namespace Sys2Proof.Machine

/-- R43: a framebuffer of 32 zero rows has no lit cell. -/
@[simp] theorem cell_blank (row : Fin 32) (col : Fin 64) : cell (Vector.replicate 32 0) row col = false := by
  have hrow : (Vector.replicate 32 0 : Framebuffer)[row.val] = 0 := Vector.getElem_replicate row.isLt
  rw [cell, hrow]
  exact BitVec.getLsbD_zero

/-- CLS always completes, with a blank framebuffer and `dirty` set. -/
theorem exec_cls (s : State) : exec .cls s = .next { s with fb := Vector.replicate 32 0, dirty := true } := rfl

end Sys2Proof.Machine

namespace Sys2Proof

open Machine

/-- The word `00E0` is CLS, tried in family 0 before SYS (R79, R82). -/
theorem decode_cls : decode 0x00E0#16 = .ok .cls := rfl

/-- Settles O25: CLS shows the blank framebuffer, no cell of which is lit. -/
theorem clsClearsScreen : Obligations.ClsClearsScreen :=
  ⟨decode_cls, fun s => ⟨Vector.replicate 32 0, exec_cls s, cell_blank⟩⟩

end Sys2Proof
end

section
/-! Reset (70_reset_and_hazards.md R230): memory after a reset reads as the glyph table of the machine's own FONT, and the
step that takes a reset call. -/

namespace Sys2Proof.Machine

/-- The bytes a reset stores are the glyphs one after another. -/
theorem fontBytes_eq_flatten (font : Vector (Vector Byte 5) 16) : fontBytes font = font.flatten.toList := by
  simp only [fontBytes, Vector.flatten, Vector.toList, Array.toList_flatten, Array.toList_map, List.map_map,
    Function.comp_def]

/-- Byte `a` of the 80 that a reset stores is byte `a` of the glyph table (10_state.md R42). -/
theorem fontBytes_getD (font : Vector (Vector Byte 5) 16) {a : Nat} (h : a < 80) :
    (fontBytes font).getD a 0 = fontByte font a := by
  have hlen : a < font.flatten.toList.length := by simpa using h
  rw [fontBytes_eq_flatten, List.getD_eq_getElem _ _ hlen, Vector.getElem_toList, Vector.getElem_flatten, fontByte,
    dif_pos h]

/-- R230: whatever the FONT, memory after a reset is FONT at 0 to 79 and 0 above. -/
@[simp] theorem read_resetMemory (font : Vector (Vector Byte 5) 16) (a : Nat) :
    (resetMemory font).read a = fontByte font a := by
  have hfit : 0 + (fontBytes font).length ≤ Config.memSize := by rw [fontBytes_length]; decide
  rw [resetMemory, Memory.read_writeBytes _ _ _ hfit, fontBytes_length]
  by_cases h : a < 80
  · rw [if_pos (by omega), Nat.sub_zero, fontBytes_getD font h]
  · rw [if_neg (by omega), Memory.read_nil, unlistedByte, fontByte_past _ (by omega), fontByte_past _ (by omega)]

/-- R230: a reset call at the head of the host's list is taken at once, whatever the core is doing. -/
theorem step_rst {s : State} {rest : List HostCall} (h : s.env.hostIn = .rst :: rest) :
    step s = .next (resetWith s.params { s.env with hostIn := rest }) := by
  simp only [step, sequencerStep, h]

end Sys2Proof.Machine

namespace Sys2Proof

open Machine

/-- A reset under any parameters, whatever comes from outside, puts every piece of state to its reset value. -/
theorem atReset_resetWith (p : Params) (e : Env) : AtReset (resetWith p e) :=
  atReset_of_mem e (fun d r => by rw [read_resetMemory, fontByte_glyph])
    (fun a hlow _ => by rw [read_resetMemory, fontByte_past _ hlow])

/-- Settles O53: the step answers `resetWith`, in which nothing of the state before but its parameters and what comes from
outside is left, so neither phase nor fault matters. -/
theorem resetAtAnyTime : Obligations.ResetAtAnyTime :=
  fun s _ h => ⟨_, step_rst h, atReset_resetWith s.params _⟩

end Sys2Proof
end

section
/-! The round trip of encoder and decoder (30_encoding.md R79), and the words that decode to nothing (R81). -/

namespace Sys2Proof

/-- SYS carries neither of the two words of family 0 that are other instructions (R82). -/
theorem sysFieldOk_iff (nnn : Addr) : sysFieldOk nnn = true ↔ nnn ≠ 0x0E0#12 ∧ nnn ≠ 0x0EE#12 := by
  simp [sysFieldOk]

/-- The low 12 bits of a family-0 word say which word it is. -/
theorem encNNN_zero_eq_iff (nnn a : Addr) : encNNN 0x0#4 nnn = encNNN 0x0#4 a ↔ nnn = a :=
  ⟨fun h => by simpa using congrArg opNNN h, fun h => h ▸ rfl⟩

theorem decode0_encNNN {nnn : Addr} (h : sysFieldOk nnn = true) : decode0 (encNNN 0x0#4 nnn) = .sys nnn := by
  obtain ⟨hcls, hret⟩ := (sysFieldOk_iff nnn).1 h
  have hcls' : encNNN 0x0#4 nnn ≠ 0x00E0#16 := fun e => hcls ((encNNN_zero_eq_iff nnn 0x0E0#12).1 e)
  have hret' : encNNN 0x0#4 nnn ≠ 0x00EE#16 := fun e => hret ((encNNN_zero_eq_iff nnn 0x0EE#12).1 e)
  rw [decode0, if_neg hcls', if_neg hret', opNNN_encNNN]

/-- The word of a well-formed instruction decodes to it: its family nibble selects the arm, its sub-opcode the
instruction, and each operand field reads back. -/
theorem decode_encode {i : Instr} (h : i.wellFormed = true) : decode (encode i) = .ok i := by
  cases i with
  | cls => rfl
  | ret => rfl
  | sys nnn => simp only [encode, decode, opFam_encNNN, decode0_encNNN h]
  | _ => simp [encode, decode, decode8, decodeE, decodeF]

/-- Settles O1: the two bytes are put together to the word, which decodes to the instruction. -/
theorem decodeOfEncode : Obligations.DecodeOfEncode := by
  intro i rest h
  simp only [encodeBytes, List.cons_append, List.nil_append, decodeBytes, opcodeOfBytes_bytes, decode_encode h]

/-! ## From a word to its instruction and back -/

theorem encNNN_of_fields {op : Word} {f : Nibble} (hf : opFam op = f) : encNNN f (opNNN op) = op :=
  hf ▸ encNNN_fields op

theorem encXKK_of_fields {op : Word} {f : Nibble} {kk : Byte} (hf : opFam op = f) (hkk : opKK op = kk) :
    encXKK f (opX op) kk = op := hf ▸ hkk ▸ encXKK_fields op

theorem encXYN_of_fields {op : Word} {f n : Nibble} (hf : opFam op = f) (hn : opN op = n) :
    encXYN f (opX op) (opY op) n = op := hf ▸ hn ▸ encXYN_fields op

/-- The instruction is well formed and the word is its word. -/
def EncodesTo (i : Instr) (op : Word) : Prop := i.wellFormed = true ∧ encode i = op

theorem decode0_encodesTo {op : Word} (hf : opFam op = 0x0#4) : EncodesTo (decode0 op) op := by
  have hword := encNNN_of_fields hf
  unfold decode0
  split
  · next h => exact ⟨rfl, h.symm⟩
  · next hcls =>
    split
    · next h => exact ⟨rfl, h.symm⟩
    · next hret =>
      refine ⟨(sysFieldOk_iff _).2 ⟨fun e => hcls ?_, fun e => hret ?_⟩, hword⟩
      · rw [← hword, e]; rfl
      · rw [← hword, e]; rfl

theorem decode8_encodesTo {op : Word} {i : Instr} (hf : opFam op = 0x8#4) (h : decode8 op = .ok i) :
    EncodesTo i op := by
  unfold decode8 at h
  split at h
  case h_10 => cases h
  all_goals
    next hn =>
    cases h
    exact ⟨rfl, encXYN_of_fields hf hn⟩

theorem decodeE_encodesTo {op : Word} {i : Instr} (hf : opFam op = 0xE#4) (h : decodeE op = .ok i) :
    EncodesTo i op := by
  unfold decodeE at h
  split at h
  case h_3 => cases h
  all_goals
    next hkk =>
    cases h
    exact ⟨rfl, encXKK_of_fields hf hkk⟩

theorem decodeF_encodesTo {op : Word} {i : Instr} (hf : opFam op = 0xF#4) (h : decodeF op = .ok i) :
    EncodesTo i op := by
  unfold decodeF at h
  split at h
  case h_10 => cases h
  all_goals
    next hkk =>
    cases h
    exact ⟨rfl, encXKK_of_fields hf hkk⟩

/-- The arms of the decoder, one by one: the formats of R71 with the family nibble that selects them. -/
theorem decode_encodesTo {op : Word} {i : Instr} (h : decode op = .ok i) : EncodesTo i op := by
  unfold decode at h
  split at h
  case h_1 hf => cases h; exact decode0_encodesTo hf
  case h_9 hf => exact decode8_encodesTo hf h
  case h_15 hf => exact decodeE_encodesTo hf h
  case h_16 =>
    have hf : opFam op = 0xF#4 := by
      generalize opFam op = f at *
      revert f
      decide
    exact decodeF_encodesTo hf h
  case h_6 hf =>
    split at h
    · next hn => cases h; exact ⟨rfl, encXYN_of_fields hf hn⟩
    · cases h
  case h_10 hf =>
    split at h
    · next hn => cases h; exact ⟨rfl, encXYN_of_fields hf hn⟩
    · cases h
  case h_14 hf => cases h; exact ⟨rfl, encXYN_of_fields hf rfl⟩
  case h_2 hf | h_3 hf | h_11 hf | h_12 hf => cases h; exact ⟨rfl, encNNN_of_fields hf⟩
  case h_4 hf | h_5 hf | h_7 hf | h_8 hf | h_13 hf => cases h; exact ⟨rfl, encXKK_of_fields hf rfl⟩

/-- Settles O2: every arm of the decoder keeps all the fields it does not fix, so the encoder puts the same word
together. -/
theorem encodeOfDecode : Obligations.EncodeOfDecode := fun _ _ h => decode_encodesTo h

/-! ## The illegal words (R81) -/

theorem opFam_toNat (op : Word) : (opFam op).toNat = op.toNat / 4096 := by
  have := op.isLt
  simp only [opFam, BitVec.extractLsb'_toNat, Nat.shiftRight_eq_div_pow]
  omega

theorem opN_toNat (op : Word) : (opN op).toNat = op.toNat % 16 := by
  simp [opN, BitVec.extractLsb'_toNat]

theorem opKK_toNat (op : Word) : (opKK op).toNat = op.toNat % 256 := by
  simp [opKK, BitVec.extractLsb'_toNat]

/-- The illegal words by their fields, in the decoder's order of families. -/
theorem illegalOpcode_iff_fields (op : Word) : IllegalOpcode op ↔
    (opFam op = 5 ∧ opN op ≠ 0) ∨
    (opFam op = 8 ∧ opN op ∈ [8, 9, 0xA, 0xB, 0xC, 0xD, 0xF]) ∨
    (opFam op = 9 ∧ opN op ≠ 0) ∨
    (opFam op = 0xE ∧ opKK op ∉ [0x9E, 0xA1]) ∨
    (opFam op = 0xF ∧ opKK op ∉ [0x07, 0x0A, 0x15, 0x18, 0x1E, 0x29, 0x33, 0x55, 0x65]) := by
  simp [IllegalOpcode, ← opFam_toNat, ← opN_toNat, ← opKK_toNat, ← BitVec.toNat_inj]

/-- The low nibbles of family 8 that select no instruction. -/
theorem decode8_error_iff (op : Word) :
    (∃ r, decode8 op = .error r) ↔ opN op ∈ [8, 9, 0xA, 0xB, 0xC, 0xD, 0xF] := by
  unfold decode8
  split
  case h_10 =>
    refine iff_of_true ⟨_, rfl⟩ ?_
    generalize opN op = n at *
    revert n
    decide
  all_goals
    next hn =>
    rw [hn]
    exact iff_of_false nofun (by decide)

theorem decodeE_error_iff (op : Word) : (∃ r, decodeE op = .error r) ↔ opKK op ∉ [0x9E, 0xA1] := by
  unfold decodeE
  split
  case h_3 h9E hA1 => exact iff_of_true ⟨_, rfl⟩ (by simpa using ⟨h9E, hA1⟩)
  all_goals
    next hkk =>
    rw [hkk]
    exact iff_of_false nofun (by decide)

theorem decodeF_error_iff (op : Word) :
    (∃ r, decodeF op = .error r) ↔ opKK op ∉ [0x07, 0x0A, 0x15, 0x18, 0x1E, 0x29, 0x33, 0x55, 0x65] := by
  unfold decodeF
  split
  case h_10 h07 h0A h15 h18 h1E h29 h33 h55 h65 =>
    exact iff_of_true ⟨_, rfl⟩ (by simpa using ⟨h07, h0A, h15, h18, h1E, h29, h33, h55, h65⟩)
  all_goals
    next hkk =>
    rw [hkk]
    exact iff_of_false nofun (by decide)

/-- Settles O3: family by family, on the fields. -/
theorem decoderRejectsExactlyIllegal : Obligations.DecoderRejectsExactlyIllegal := by
  intro op
  rw [illegalOpcode_iff_fields]
  unfold decode
  split
  case h_9 hf => simp [hf, decode8_error_iff]
  case h_15 hf => simp [hf, decodeE_error_iff]
  case h_16 =>
    have hf : opFam op = 0xF#4 := by
      generalize opFam op = f at *
      revert f
      decide
    simp [hf, decodeF_error_iff]
  case h_6 hf | h_10 hf => split <;> simp [*]
  all_goals
    next hf =>
    simp [hf]

/-- Settles O4, word by word. -/
theorem specWordsDecode : Obligations.SpecWordsDecode := by
  unfold Obligations.SpecWordsDecode
  decide

end Sys2Proof
end

section
/-! What an instruction leaves unchanged, said once for all instructions: `writtenBy` lists the parts of the state that
each instruction may write (10_state.md R20 to R43), and `exec_frame` says that every other part is as before. Every
frame statement is then a question about the list. -/

namespace Sys2Proof.Machine

/-- The parts of the state that an instruction may write, and `sequencer`, which stands for all the rest but the fault
register. -/
inductive Part where
  | V | I | pc | sp | stack | delay | sound | fb | dirty | mem | rndIn | sequencer

/-- What the sequencer and the host hold, the keypad latch and the parameters: no instruction writes any of it. -/
def State.sequencerView (s : State) :=
  (s.keypad, s.elapsed, s.params, s.phase, s.output, s.env.hostIn, s.env.costIn, s.env.costDraws)

/-- A part is as before. -/
def Part.Kept (s t : State) : Part → Prop
  | .V => t.V = s.V
  | .I => t.I = s.I
  | .pc => t.pc = s.pc
  | .sp => t.sp = s.sp
  | .stack => t.stack = s.stack
  | .delay => t.delay = s.delay
  | .sound => t.sound = s.sound
  | .fb => t.fb = s.fb
  | .dirty => t.dirty = s.dirty
  | .mem => t.mem = s.mem
  | .rndIn => t.env.rndIn = s.env.rndIn
  | .sequencer => t.sequencerView = s.sequencerView

/-- The parts that an instruction may write. -/
@[simp] def writtenBy : Instr → List Part
  | .cls => [.fb, .dirty]
  | .drw _ _ _ => [.fb, .dirty, .V]
  | .sys _ => []
  | .ret => [.sp, .pc]
  | .call _ => [.stack, .sp, .pc]
  | .jp _ | .jpV0 _ | .seImm _ _ | .sneImm _ _ | .seReg _ _ | .sneReg _ _ | .skp _ | .sknp _ => [.pc]
  | .ldI _ | .addI _ | .ldF _ => [.I]
  | .ldImm _ _ | .addImm _ _ | .ldReg _ _ | .orReg _ _ | .andReg _ _ | .xorReg _ _ => [.V]
  | .addReg _ _ | .subReg _ _ | .shr _ _ | .subnReg _ _ | .shl _ _ | .ldVxDT _ | .ldVxMem _ => [.V]
  | .ldVxK _ => [.pc, .V]
  | .rnd _ _ => [.rndIn, .V]
  | .ldDTVx _ => [.delay]
  | .ldSTVx _ => [.sound]
  | .ldB _ | .ldMemVx _ => [.mem]

/-- Every part outside the list is as before. -/
def Frame (w : List Part) (s t : State) : Prop := ∀ p, p ∉ w → p.Kept s t

/-! ## The frame of each operation -/

theorem Frame.refl (w : List Part) (s : State) : Frame w s s := fun p _ => by cases p <;> rfl

/-- Recording a fault writes none of the parts. -/
theorem Frame.withFault (w : List Part) (s : State) (f : CoreFault) : Frame w s (s.withFault f) :=
  fun p _ => by cases p <;> rfl

theorem Frame.setReg {w : List Part} (h : .V ∈ w) (s : State) (x : Reg) (b : Byte) : Frame w s (s.setReg x b) :=
  fun p hp => by
    cases p with
    | V => exact absurd h hp
    | _ => rfl

theorem Frame.setResultFlag (s : State) (x : Reg) (r : Byte) (f : Bool) : Frame [.V] s (s.setResultFlag x r f) :=
  fun p hp => by
    cases p with
    | V => exact absurd (List.mem_singleton.2 rfl) hp
    | _ => rfl

theorem Frame.setPc {w : List Part} (h : .pc ∈ w) (s : State) (a : Word) : Frame w s (s.setPc a) :=
  fun p hp => by
    cases p with
    | pc => exact absurd h hp
    | _ => rfl

theorem Frame.setI (s : State) (a : Word) : Frame [.I] s (s.setI a) :=
  fun p hp => by
    cases p with
    | I => exact absurd (List.mem_singleton.2 rfl) hp
    | _ => rfl

theorem SkipEffect.frame {c : Prop} {s t : State} (h : SkipEffect c s t) : Frame [.pc] s t := by
  rcases h with ⟨-, rfl⟩ | ⟨-, rfl⟩
  · exact Frame.setPc (List.mem_singleton.2 rfl) s _
  · exact Frame.refl _ _

theorem SpanEffect.frame {n : Nat} {w : List Part} {go s t : State} (h : SpanEffect n go s t) (hgo : Frame w s go) :
    Frame w s t := by
  rcases h with ⟨-, rfl⟩ | ⟨-, rfl⟩
  · exact hgo
  · exact Frame.withFault w s _

/-- The frame of every instruction. -/
theorem exec_frame {i : Instr} {s t : State} (h : exec i s = .next t) : Frame (writtenBy i) s t := by
  have he := exec_effect h
  cases i with
  | seImm | sneImm | seReg | sneReg | skp | sknp => exact SkipEffect.frame he
  | jp | jpV0 => exact he ▸ Frame.setPc (by simp) s _
  | ldI | addI | ldF => exact he ▸ Frame.setI s _
  | ldImm | addImm | ldReg | orReg | andReg | xorReg | ldVxDT => exact he ▸ Frame.setReg (by simp) s _ _
  | addReg | subReg | subnReg | shr | shl => exact he ▸ Frame.setResultFlag s _ _ _
  | sys nnn =>
    rcases he with ⟨-, rfl⟩ | ⟨-, rfl⟩
    · exact Frame.withFault _ s _
    · exact Frame.refl _ _
  | ldVxK x =>
    rcases he with ⟨-, rfl⟩ | ⟨-, rfl⟩
    · exact Frame.setPc (by simp) s _
    · exact Frame.setReg (by simp) s _ _
  | ret =>
    rcases he with ⟨-, rfl⟩ | ⟨-, rfl⟩
    · exact Frame.withFault _ s _
    · intro p hp
      cases p with
      | sp | pc => simp at hp
      | _ => rfl
  | call nnn =>
    rcases he with ⟨-, rfl⟩ | ⟨-, rfl⟩
    · exact Frame.withFault _ s _
    · intro p hp
      cases p with
      | stack | sp | pc => simp at hp
      | _ => rfl
  | cls =>
    subst he
    intro p hp
    cases p with
    | fb | dirty => simp at hp
    | _ => rfl
  | drw x y n =>
    refine SpanEffect.frame he fun p hp => ?_
    cases p with
    | fb | dirty | V => simp at hp
    | _ => rfl
  | rnd x kk =>
    subst he
    intro p hp
    cases p with
    | rndIn | V => simp at hp
    | sequencer => simp [Part.Kept, State.sequencerView, State.drawRnd_env]
    | _ => rfl
  | ldDTVx x =>
    subst he
    intro p hp
    cases p with
    | delay => simp at hp
    | _ => rfl
  | ldSTVx x =>
    subst he
    intro p hp
    cases p with
    | sound => simp at hp
    | _ => rfl
  | ldB x | ldMemVx x =>
    refine SpanEffect.frame he fun p hp => ?_
    cases p with
    | mem => simp at hp
    | _ => rfl
  | ldVxMem x =>
    refine SpanEffect.frame he fun p hp => ?_
    cases p with
    | V => simp at hp
    | _ => rfl

end Sys2Proof.Machine
end

section
/-! Which instructions write which part (10_state.md, 20_memory.md R54): the list of writers of each part, read off
`writtenBy`, and the statements about what is left as it was. -/

namespace Sys2Proof.Machine

theorem mem_written_iff (i : Instr) : .mem ∈ writtenBy i ↔ (∃ x, i = .ldB x) ∨ ∃ x, i = .ldMemVx x := by
  cases i <;> simp

theorem stack_written_iff (i : Instr) : .stack ∈ writtenBy i ↔ ∃ nnn, i = .call nnn := by
  cases i <;> simp

theorem sp_written_iff (i : Instr) : .sp ∈ writtenBy i ↔ i = .ret ∨ ∃ nnn, i = .call nnn := by
  cases i <;> simp

theorem delay_written_iff (i : Instr) : .delay ∈ writtenBy i ↔ ∃ x, i = .ldDTVx x := by
  cases i <;> simp

theorem sound_written_iff (i : Instr) : .sound ∈ writtenBy i ↔ ∃ x, i = .ldSTVx x := by
  cases i <;> simp

theorem fb_written_iff (i : Instr) : .fb ∈ writtenBy i ↔ i = .cls ∨ ∃ x y n, i = .drw x y n := by
  cases i <;> simp

theorem dirty_written_iff (i : Instr) : .dirty ∈ writtenBy i ↔ i = .cls ∨ ∃ x y n, i = .drw x y n := by
  cases i <;> simp

theorem I_written_iff (i : Instr) :
    .I ∈ writtenBy i ↔ (∃ nnn, i = .ldI nnn) ∨ (∃ x, i = .addI x) ∨ ∃ x, i = .ldF x := by
  cases i <;> simp

theorem pc_written_iff (i : Instr) :
    .pc ∈ writtenBy i ↔ i = .ret ∨ (∃ nnn, i = .call nnn) ∨ (∃ nnn, i = .jp nnn) ∨ (∃ nnn, i = .jpV0 nnn) ∨
      (∃ x kk, i = .seImm x kk) ∨ (∃ x kk, i = .sneImm x kk) ∨ (∃ x y, i = .seReg x y) ∨ (∃ x y, i = .sneReg x y) ∨
      (∃ x, i = .skp x) ∨ (∃ x, i = .sknp x) ∨ ∃ x, i = .ldVxK x := by
  cases i <;> simp

theorem sequencer_not_written (i : Instr) : .sequencer ∉ writtenBy i := by
  cases i <;> simp

/-- No instruction touches the sequencer's part of the state. -/
theorem exec_sequencerView {i : Instr} {s t : State} (h : exec i s = .next t) :
    t.sequencerView = s.sequencerView := exec_frame h .sequencer (sequencer_not_written i)

/-- R164: a draw may set `dirty`, and never clears it. -/
theorem drawSprite_dirty_of_dirty {s : State} (h : s.dirty = true) (x y : Reg) (n : Nibble) :
    (drawSprite s x y n).dirty = true := by
  obtain ⟨-, -, hdirty⟩ := drawRows_spec s.mem s.I.toNat (s.reg x).toNat (s.reg y).toNat
    { fb := s.fb, coll := false, dirty := s.dirty } n.toNat (by have := n.isLt; omega)
  exact hdirty.2 (.inl h)

/-- R36: no instruction clears `dirty`. -/
theorem exec_dirty_of_dirty {i : Instr} {s t : State} (h : exec i s = .next t) (hd : s.dirty = true) :
    t.dirty = true := by
  by_cases hw : .dirty ∈ writtenBy i
  · have he := exec_effect h
    rcases (dirty_written_iff i).1 hw with rfl | ⟨x, y, n, rfl⟩
    · rw [show t = _ from he]
    · rcases he with ⟨-, rfl⟩ | ⟨-, rfl⟩
      · exact drawSprite_dirty_of_dirty hd x y n
      · exact hd
  · exact (exec_frame h .dirty hw).trans hd

end Sys2Proof.Machine

namespace Sys2Proof

open Machine

/-- Settles O33: memory is written by LD B and LD [I] alone. -/
theorem onlyTwoInstructionsStore : Obligations.OnlyTwoInstructionsStore := by
  intro i s t h hB hMem
  have hw : .mem ∉ writtenBy i := by rw [mem_written_iff]; simp [hB, hMem]
  have hmem : t.mem = s.mem := exec_frame h .mem hw
  exact ⟨hmem, fun a => by rw [hmem]⟩

/-- Settles O34: the entries are written by CALL alone, `sp` by CALL and RET. -/
theorem onlyCallAndRetTouchStack : Obligations.OnlyCallAndRetTouchStack := by
  intro i s t h
  refine ⟨fun hcall => exec_frame h .stack ?_, fun hcall hret => exec_frame h .sp ?_⟩
  · rw [stack_written_iff]; simp [hcall]
  · rw [sp_written_iff]; simp [hcall, hret]

/-- Settles O35: each part has its writers, and DRW keeps a set `dirty` set. -/
theorem timerAndScreenWriters : Obligations.TimerAndScreenWriters := by
  intro i s t h
  refine ⟨fun hDT => exec_frame h .delay ?_, fun hST => exec_frame h .sound ?_,
    fun hcls hdrw => ⟨exec_frame h .fb ?_, exec_frame h .dirty ?_⟩, exec_dirty_of_dirty h⟩
  · rw [delay_written_iff]; simp [hDT]
  · rw [sound_written_iff]; simp [hST]
  · rw [fb_written_iff]; simp [hcls, hdrw]
  · rw [dirty_written_iff]; simp [hcls, hdrw]

/-- Settles O36: each of the two registers has its writers. -/
theorem indexAndPcWriters : Obligations.IndexAndPcWriters := by
  intro i s t h
  refine ⟨fun hldI haddI hldF => exec_frame h .I ?_,
    fun hret hcall hjp hjpV0 hse hsne hseR hsneR hskp hsknp hK => exec_frame h .pc ?_⟩
  · rw [I_written_iff]; simp [hldI, haddI, hldF]
  · rw [pc_written_iff]; simp [hret, hcall, hjp, hjpV0, hse, hsne, hseR, hsneR, hskp, hsknp, hK]

/-- Settles O37: the sequencer's part is on no instruction's list. -/
theorem sequencerStateUntouched : Obligations.SequencerStateUntouched := by
  intro i s t h
  simpa [State.sequencerView] using exec_sequencerView h

end Sys2Proof
end

section
/-! The faults an instruction can raise (60_exceptions.md R200, R208): `raisedBy` is R200's table, and an instruction
either raises the fault the table names, with nothing else changed, or leaves the fault register alone. -/

namespace Sys2Proof.Machine

/-- OutOfBounds when the span of `n` bytes at `I` passes the end of memory (R202). -/
def spanFault (s : State) (n : Nat) : Option CoreFault :=
  if 4096 < s.I.toNat + n then some .outOfBounds else none

/-- The fault an instruction raises in a state, by the table of R200. -/
def raisedBy (i : Instr) (s : State) : Option CoreFault :=
  match i with
  | .sys _ => if s.params.sysPolicy = .fault then some .decodeError else none
  | .ret => if s.sp = 0 then some .stackUnderflow else none
  | .call _ => if s.sp = 16 then some .stackOverflow else none
  | .drw _ _ n => spanFault s n.toNat
  | .ldB _ => spanFault s 3
  | .ldMemVx x | .ldVxMem x => spanFault s (x.val + 1)
  | _ => none

/-- The fault `f` is raised and nothing else changes, or none is and the fault register is as before. -/
def FaultStep (f : Option CoreFault) (s t : State) : Prop :=
  (f = none ∧ t.fault = s.fault) ∨ ∃ c, f = some c ∧ t = s.withFault c

theorem SkipEffect.faultStep {c : Prop} {s t : State} (h : SkipEffect c s t) : FaultStep none s t := by
  rcases h with ⟨-, rfl⟩ | ⟨-, rfl⟩ <;> exact .inl ⟨rfl, rfl⟩

theorem SpanEffect.faultStep {n : Nat} {go s t : State} (h : SpanEffect n go s t) (hgo : go.fault = s.fault) :
    FaultStep (spanFault s n) s t := by
  rcases h with ⟨hin, rfl⟩ | ⟨hout, rfl⟩
  · exact .inl ⟨if_neg (by omega), hgo⟩
  · exact .inr ⟨_, if_pos hout, rfl⟩

/-- Every instruction raises exactly the fault that R200's table names for it. -/
theorem exec_faultStep {i : Instr} {s t : State} (h : exec i s = .next t) : FaultStep (raisedBy i s) s t := by
  have he := exec_effect h
  cases i with
  | seImm | sneImm | seReg | sneReg | skp | sknp => exact SkipEffect.faultStep he
  | drw | ldB | ldMemVx | ldVxMem => exact SpanEffect.faultStep he rfl
  | sys nnn =>
    rcases he with ⟨hp, rfl⟩ | ⟨hp, rfl⟩
    · exact .inr ⟨_, if_pos hp, rfl⟩
    · exact .inl ⟨if_neg (by simp [hp]), rfl⟩
  | ret | call =>
    rcases he with ⟨hsp, rfl⟩ | ⟨hsp, rfl⟩
    · exact .inr ⟨_, if_pos hsp, rfl⟩
    · exact .inl ⟨if_neg hsp, rfl⟩
  | ldVxK x => rcases he with ⟨-, rfl⟩ | ⟨-, rfl⟩ <;> exact .inl ⟨rfl, rfl⟩
  | _ => subst he; exact .inl ⟨rfl, rfl⟩

/-- After an instruction from an unfaulted state the fault register is what R200's table says. -/
theorem exec_fault {i : Instr} {s t : State} (hs : s.fault = none) (h : exec i s = .next t) :
    t.fault = raisedBy i s := by
  rcases exec_faultStep h with ⟨hf, ht⟩ | ⟨c, hf, rfl⟩
  · rw [hf, ht, hs]
  · rw [hf, State.withFault_fault]

theorem spanFault_eq_some_iff (s : State) (n : Nat) (f : CoreFault) :
    spanFault s n = some f ↔ f = .outOfBounds ∧ 4096 < s.I.toNat + n := by
  unfold spanFault
  split <;> simp [*, eq_comm]

theorem raisedBy_decodeError_iff (i : Instr) (s : State) :
    raisedBy i s = some .decodeError ↔ (∃ nnn, i = .sys nnn) ∧ s.params.sysPolicy = .fault := by
  cases i <;> simp [raisedBy, spanFault_eq_some_iff]

theorem raisedBy_outOfBounds_iff (i : Instr) (s : State) :
    raisedBy i s = some .outOfBounds ↔
      (∃ x, i = .ldB x ∧ 4096 < s.I.toNat + 3) ∨
      (∃ x, (i = .ldMemVx x ∨ i = .ldVxMem x) ∧ 4096 < s.I.toNat + x.val + 1) ∨
      ∃ x y n, i = .drw x y n ∧ 4096 < s.I.toNat + n.toNat := by
  cases i <;> simp [raisedBy, spanFault_eq_some_iff, ← Nat.add_assoc]

theorem raisedBy_stackOverflow_iff (i : Instr) (s : State) :
    raisedBy i s = some .stackOverflow ↔ (∃ nnn, i = .call nnn) ∧ s.sp = 16 := by
  cases i <;> simp [raisedBy, spanFault_eq_some_iff]

theorem raisedBy_stackUnderflow_iff (i : Instr) (s : State) :
    raisedBy i s = some .stackUnderflow ↔ i = .ret ∧ s.sp = 0 := by
  cases i <;> simp [raisedBy, spanFault_eq_some_iff]

theorem raisedBy_ne_imageTooLarge (i : Instr) (s : State) : raisedBy i s ≠ some .imageTooLarge := by
  cases i <;> simp [raisedBy, spanFault_eq_some_iff]

end Sys2Proof.Machine

namespace Sys2Proof

open Machine

/-- Settles O29: the fault recorded is the one raised, and the raise is the whole effect. -/
theorem faultingInstructionOnlyRecords : Obligations.FaultingInstructionOnlyRecords := by
  intro i s t f hs h hf
  rcases exec_faultStep h with ⟨-, ht⟩ | ⟨c, -, rfl⟩
  · rw [ht, hs] at hf
    cases hf
  · cases hf
    rfl

/-- Settles O30: the fault register after the instruction is R200's table, fault by fault. -/
theorem faultsExactlyWhenListed : Obligations.FaultsExactlyWhenListed := by
  intro i s hs
  obtain ⟨t, ht, -⟩ := exec_next_effect i s
  refine ⟨t, ht, ?_⟩
  rw [exec_fault hs ht]
  exact ⟨raisedBy_decodeError_iff i s, raisedBy_outOfBounds_iff i s, raisedBy_stackOverflow_iff i s,
    raisedBy_stackUnderflow_iff i s, raisedBy_ne_imageTooLarge i s⟩

/-- Settles O31: the codes one by one. -/
theorem faultRegisterCodes : Obligations.FaultRegisterCodes := by
  refine ⟨rfl, rfl, rfl, rfl, rfl, rfl, fun f => ?_⟩
  cases f with
  | none => decide
  | some c => cases c <;> decide

end Sys2Proof
end

section
/-! Loads, arithmetic and the flag (42_alu.md R120 to R136): a register write changes one register, a flag write two,
and the values are the numbers the rules give. -/

namespace Sys2Proof

open Machine

theorem onlyReg_setReg (x : Reg) (b : Byte) (s : State) : OnlyReg x b s (s.setReg x b) :=
  ⟨rfl, s.reg_setReg_same x b, fun r h => s.reg_setReg_other x r b h⟩

theorem resultThenFlag_setResultFlag (x : Reg) (r : Byte) (f : Bool) (s : State) :
    ResultThenFlag x r (flagByte f) s (s.setResultFlag x r f) :=
  ⟨rfl, s.setResultFlag_flag x r f, s.setResultFlag_result r f, fun _ hx hf => s.setResultFlag_other r f hx hf⟩

/-! ## The values as numbers -/

theorem add_eq_ofNat (a b : Byte) : a + b = BitVec.ofNat 8 ((a.toNat + b.toNat) % 256) := by
  apply BitVec.eq_of_toNat_eq
  simp

theorem sub_eq_ofNat (a b : Byte) : a - b = BitVec.ofNat 8 ((a.toNat + 256 - b.toNat) % 256) := by
  apply BitVec.eq_of_toNat_eq
  have := b.isLt
  simp only [BitVec.toNat_sub, BitVec.toNat_ofNat]
  omega

theorem shiftRight_one_eq_ofNat (a : Byte) : a >>> 1 = BitVec.ofNat 8 (a.toNat / 2) := by
  apply BitVec.eq_of_toNat_eq
  have := a.isLt
  simp only [BitVec.toNat_ushiftRight, BitVec.toNat_ofNat, Nat.shiftRight_eq_div_pow]
  omega

theorem shiftLeft_one_eq_ofNat (a : Byte) : a <<< 1 = BitVec.ofNat 8 (2 * a.toNat % 256) := by
  apply BitVec.eq_of_toNat_eq
  simp only [BitVec.toNat_shiftLeft, BitVec.toNat_ofNat, Nat.shiftLeft_eq]
  omega

theorem flagByte_decide (p : Prop) [Decidable p] : flagByte (decide p) = if p then 1 else 0 := by
  simp [flagByte]

theorem flagByte_shiftedOutRight (a : Byte) : flagByte (shiftedOutRight a) = BitVec.ofNat 8 (a.toNat % 2) := by
  have hbit : shiftedOutRight a = decide (a.toNat % 2 = 1) := by
    simp [shiftedOutRight, BitVec.getLsbD, Nat.testBit_zero]
  rw [hbit, flagByte_decide]
  rcases Nat.mod_two_eq_zero_or_one a.toNat with h | h <;> rw [h] <;> rfl

theorem flagByte_shiftedOutLeft (a : Byte) : flagByte (shiftedOutLeft a) = BitVec.ofNat 8 (a.toNat / 128) := by
  have hlt := a.isLt
  have hbit : shiftedOutLeft a = decide (a.toNat / 128 = 1) := by
    simp only [shiftedOutLeft, BitVec.getLsbD, Nat.testBit_eq_decide_div_mod_eq, decide_eq_decide]
    omega
  rw [hbit, flagByte_decide]
  have h01 : a.toNat / 128 = 0 ∨ a.toNat / 128 = 1 := by omega
  rcases h01 with h | h <;> rw [h] <;> rfl

/-- R26: the flag is 0 or 1. -/
theorem flagByte_zero_or_one (f : Bool) : flagByte f = 0 ∨ flagByte f = 1 := by
  cases f
  · exact .inl rfl
  · exact .inr rfl

/-! ## The statements -/

/-- Settles O12: each is one register write; the sum wraps. -/
theorem plainRegisterWrites : Obligations.PlainRegisterWrites := fun x y kk s =>
  ⟨decode_encode (i := .ldImm x kk) rfl, decode_encode (i := .addImm x kk) rfl, decode_encode (i := .ldReg x y) rfl,
    ⟨_, rfl, onlyReg_setReg x kk s⟩, ⟨_, rfl, add_eq_ofNat (s.reg x) kk ▸ onlyReg_setReg x _ s⟩,
    ⟨_, rfl, onlyReg_setReg x (s.reg y) s⟩⟩

/-- Settles O13: each is one register write, of the operation taken bit by bit. -/
theorem bitwiseResults : Obligations.BitwiseResults := fun x y s =>
  ⟨decode_encode (i := .orReg x y) rfl, decode_encode (i := .andReg x y) rfl, decode_encode (i := .xorReg x y) rfl,
    _, _, _, _, _, _, rfl, onlyReg_setReg x _ s, rfl, onlyReg_setReg x _ s, rfl, onlyReg_setReg x _ s,
    fun _ _ => ⟨BitVec.getLsbD_or, BitVec.getLsbD_and, BitVec.getLsbD_xor⟩⟩

/-- Settles O14: the wrapped sum, then its carry. -/
theorem addSetsCarry : Obligations.AddSetsCarry := by
  intro x y s
  refine ⟨decode_encode (i := .addReg x y) rfl, _, rfl, ?_⟩
  rw [← add_eq_ofNat, ← flagByte_decide]
  exact resultThenFlag_setResultFlag x _ _ s

/-- Settles O15: the wrapped difference, then the strict comparison. -/
theorem subSetsStrictFlag : Obligations.SubSetsStrictFlag := by
  intro x y s
  refine ⟨decode_encode (i := .subReg x y) rfl, _, rfl, ?_⟩
  rw [← sub_eq_ofNat, ← flagByte_decide]
  exact resultThenFlag_setResultFlag x _ _ s

/-- Settles O16: as O15, with the operands exchanged. -/
theorem subnSetsStrictFlag : Obligations.SubnSetsStrictFlag := by
  intro x y s
  refine ⟨decode_encode (i := .subnReg x y) rfl, _, rfl, ?_⟩
  rw [← sub_eq_ofNat, ← flagByte_decide]
  exact resultThenFlag_setResultFlag x _ _ s

/-- Settles O17: half and double, then the bit that fell out. -/
theorem shiftsSetShiftedOutBit : Obligations.ShiftsSetShiftedOutBit := by
  intro x y s
  refine ⟨decode_encode (i := .shr x y) rfl, decode_encode (i := .shl x y) rfl, ⟨_, rfl, ?_⟩, ⟨_, rfl, ?_⟩⟩
  · rw [← shiftRight_one_eq_ofNat, ← flagByte_shiftedOutRight]
    exact resultThenFlag_setResultFlag x _ _ s
  · rw [← shiftLeft_one_eq_ofNat, ← flagByte_shiftedOutLeft]
    exact resultThenFlag_setResultFlag x _ _ s

end Sys2Proof
end

section
/-! The register frame of all instructions (10_state.md R21, R26): which registers keep their values, and that VF after
a flag writer is 0 or 1. -/

namespace Sys2Proof

open Machine

/-- Registers outside a written set keep their values. -/
def RegsKept (w : Reg → Prop) (s t : State) : Prop := ∀ r, ¬ w r → t.reg r = s.reg r

theorem RegsKept.of_V {w : Reg → Prop} {s t : State} (h : t.V = s.V) : RegsKept w s t :=
  fun r _ => congrArg (fun V : Vector Byte 16 => V[r.val]) h

theorem RegsKept.setReg (s : State) (x : Reg) (b : Byte) : RegsKept (· = x) s (s.setReg x b) :=
  (onlyReg_setReg x b s).other

theorem RegsKept.setResultFlag (s : State) (x : Reg) (r : Byte) (f : Bool) :
    RegsKept (fun k => k = x ∨ k = 15) s (s.setResultFlag x r f) :=
  fun _ h => (resultThenFlag_setResultFlag x r f s).other _ (fun e => h (.inl e)) (fun e => h (.inr e))

theorem RegsKept.loadRegs (s : State) (x : Reg) :
    RegsKept (· ≤ x) s { s with V := loadRegs s.mem s.I.toNat s.V (x.val + 1) } := by
  intro r h
  have hlt : ¬ r.val < x.val + 1 := fun e => h (Nat.le_of_lt_succ e)
  exact (loadRegs_get s.mem s.I.toNat s.V (x.val + 1) r).trans (if_neg hlt)

theorem RegsKept.span {w : Reg → Prop} {n : Nat} {go s t : State} (h : SpanEffect n go s t)
    (hgo : RegsKept w s go) : RegsKept w s t := by
  rcases h with ⟨-, rfl⟩ | ⟨-, rfl⟩
  · exact hgo
  · exact RegsKept.of_V rfl

/-- R21, R26: a register that an instruction does not write keeps its value. -/
theorem exec_regsKept {i : Instr} {s t : State} (h : exec i s = .next t) : RegsKept (WritesReg i) s t := by
  have he := exec_effect h
  cases i with
  | ldImm | addImm | ldReg | orReg | andReg | xorReg | ldVxDT => exact he ▸ RegsKept.setReg s _ _
  | addReg | subReg | subnReg | shr | shl => exact he ▸ RegsKept.setResultFlag s _ _ _
  | rnd x kk => exact he ▸ RegsKept.setReg { s with env := s.drawRnd.2 } x _
  | ldVxK x =>
    rcases he with ⟨-, rfl⟩ | ⟨-, rfl⟩
    · exact RegsKept.of_V rfl
    · exact RegsKept.setReg s x _
  | drw x y n => exact RegsKept.span he (RegsKept.setReg { s with fb := _, dirty := _ } vf _)
  | ldVxMem x => exact RegsKept.span he (RegsKept.loadRegs s x)
  | _ => exact RegsKept.of_V (exec_frame h .V (by simp))

/-- R26: after a flag writer, for DRW one that does not fault, VF is a flag's value. -/
theorem exec_flag {i : Instr} {s t : State} (h : exec i s = .next t)
    (hi : (∃ x y, i = .addReg x y ∨ i = .subReg x y ∨ i = .subnReg x y ∨ i = .shr x y ∨ i = .shl x y) ∨
      ∃ x y n, i = .drw x y n ∧ s.I.toNat + n.toNat ≤ 4096) : ∃ f, t.reg 15 = flagByte f := by
  have he := exec_effect h
  rcases hi with ⟨x, y, rfl | rfl | rfl | rfl | rfl⟩ | ⟨x, y, n, rfl, hin⟩
  case inr =>
    rcases he with ⟨-, rfl⟩ | ⟨hout, -⟩
    · exact ⟨_, State.reg_setReg_same _ vf _⟩
    · omega
  all_goals exact ⟨_, he ▸ State.setResultFlag_flag s x _ _⟩

/-- Settles O32: the register frame, and the flag's two values. -/
theorem registersOtherwiseKept : Obligations.RegistersOtherwiseKept := by
  intro i s t h
  refine ⟨exec_regsKept h, fun hi => ?_⟩
  obtain ⟨f, hf⟩ := exec_flag h hi
  exact hf ▸ flagByte_zero_or_one f

end Sys2Proof
end

section
/-! Control flow (40_control_flow.md R100 to R105): SYS, the stack and the jumps. -/

namespace Sys2Proof.Machine

theorem exec_ret_empty {s : State} (h : s.sp = 0) : exec .ret s = .next (s.withFault .stackUnderflow) := if_pos h

theorem exec_call_full {s : State} (h : s.sp = 16) (nnn : Addr) :
    exec (.call nnn) s = .next (s.withFault .stackOverflow) := if_pos h

/-- R101: with `k + 1` entries RET takes entry `k`. -/
theorem exec_ret_pop {s : State} {k : Fin 16} (h : s.sp.toNat = k.val + 1) :
    exec .ret s = .next { s with sp := BitVec.ofNat 5 k.val, pc := s.stack[k.val] } := by
  have hne : s.sp ≠ 0 := fun e => by simp [e] at h
  have hsp : s.sp - 1 = BitVec.ofNat 5 k.val := by bv_omega
  have htop : stackTop s.stack s.sp.toNat = s.stack[k.val] := by simp [stackTop, h]
  rw [← hsp, ← htop]
  exact if_neg hne

/-- R102: with `k` entries, fewer than 16, CALL fills entry `k` with the advanced `pc`. -/
theorem exec_call_push {s : State} {k : Fin 16} (h : s.sp.toNat = k.val) (nnn : Addr) :
    exec (.call nnn) s = .next
      { s with stack := s.stack.set k.val s.pc, sp := BitVec.ofNat 5 (k.val + 1), pc := nnn.setWidth 16 } := by
  have hne : s.sp ≠ 16 := fun e => by have hk := k.isLt; simp [e] at h; omega
  have hsp : s.sp + 1 = BitVec.ofNat 5 (k.val + 1) := by bv_omega
  have hset : s.stack.setIfInBounds s.sp.toNat s.pc = s.stack.set k.val s.pc := by
    simp [Vector.setIfInBounds, Vector.set, Array.setIfInBounds, h]
  rw [← hsp, ← hset]
  exact if_neg hne

end Sys2Proof.Machine

namespace Sys2Proof

open Machine

/-- Settles O5: the two policies. -/
theorem sysFollowsPolicy : Obligations.SysFollowsPolicy := by
  refine ⟨rfl, fun nnn s => ⟨fun hcls hret => ?_, fun h => ?_, fun h => ?_⟩⟩
  · exact decode_encode (i := .sys nnn) ((sysFieldOk_iff nnn).2 ⟨hcls, hret⟩)
  · simp only [exec, execSys, h, raise, State.withFault]
  · simp only [exec, execSys, h]

/-- Settles O6. -/
theorem retPopsStack : Obligations.RetPopsStack :=
  ⟨rfl, fun _ => ⟨exec_ret_empty, fun _ => exec_ret_pop⟩⟩

/-- Settles O7. -/
theorem callPushesReturnAddress : Obligations.CallPushesReturnAddress := fun nnn _ =>
  ⟨decode_encode (i := .call nnn) rfl, fun h => exec_call_full h nnn, fun _ h => exec_call_push h nnn⟩

/-- Settles O8: RET takes the entry that CALL has filled. -/
theorem callThenRetRestoresPc : Obligations.CallThenRetRestoresPc := by
  intro nnn s t hlt h
  rw [exec_call_push (k := ⟨s.sp.toNat, hlt⟩) rfl] at h
  cases h
  refine ⟨_, exec_ret_pop (k := ⟨s.sp.toNat, hlt⟩) ?_, ?_, ?_⟩
  · simp only [BitVec.toNat_ofNat]; omega
  · simp
  · simp

/-- R104: the sum of an address and a byte stays within 16 bits. -/
theorem jpV0_toNat (nnn : Addr) (b : Byte) : (zextAddr nnn + zextByte b).toNat = nnn.toNat + b.toNat := by
  have := nnn.isLt
  have := b.isLt
  simp only [zextAddr, zextByte, BitVec.toNat_add, BitVec.toNat_setWidth]
  omega

/-- Settles O9. -/
theorem jumpsSetPc : Obligations.JumpsSetPc := fun nnn s =>
  ⟨decode_encode (i := .jp nnn) rfl, rfl, decode_encode (i := .jpV0 nnn) rfl, _, rfl, jpV0_toNat nnn (s.reg 0)⟩

end Sys2Proof
end

section
/-! The skips (41_skip.md R110 to R116): each is `skipIf` under its condition. -/

namespace Sys2Proof.Machine

theorem skipIf_eq {c : Bool} {p : Prop} [Decidable p] (h : c = true ↔ p) (s : State) :
    skipIf c s = .next (if p then { s with pc := s.pc + 2 } else s) := by
  simp only [skipIf, h, State.setPc]

theorem skipIf_not_eq {c : Bool} {p : Prop} [Decidable p] (h : c = true ↔ ¬ p) (s : State) :
    skipIf c s = .next (if p then s else { s with pc := s.pc + 2 }) := by
  rw [skipIf_eq h, ite_not]

/-- R116: the key number is the low nibble. -/
theorem lowNibble_eq {b : Byte} {k : Fin 16} (h : b.extractLsb' 0 4 = BitVec.ofFin k) : lowNibble b = k.val := by
  simpa [lowNibble] using congrArg BitVec.toNat h

end Sys2Proof.Machine

namespace Sys2Proof

open Machine

/-- Settles O10. -/
theorem compareSkipsAdvancePc : Obligations.CompareSkipsAdvancePc := fun x y kk s =>
  ⟨decode_encode (i := .seImm x kk) rfl, decode_encode (i := .sneImm x kk) rfl, decode_encode (i := .seReg x y) rfl,
    decode_encode (i := .sneReg x y) rfl, skipIf_eq beq_iff_eq s, skipIf_not_eq bne_iff_ne s,
    skipIf_eq beq_iff_eq s, skipIf_not_eq bne_iff_ne s⟩

/-- Settles O11. -/
theorem keySkipsTestLowNibble : Obligations.KeySkipsTestLowNibble := by
  intro x k s hk
  have hkey : s.keyHeld (lowNibble (s.reg x)) = s.keypad.getLsbD k.val := by rw [State.keyHeld, lowNibble_eq hk]
  exact ⟨decode_encode (i := .skp x) rfl, decode_encode (i := .sknp x) rfl, skipIf_eq (by rw [hkey]) s,
    skipIf_not_eq (by rw [hkey, Bool.not_eq_true', Bool.not_eq_true]) s⟩

end Sys2Proof
end

section
/-! The index register (43_index_memory.md R140 to R142), the timers, the key wait and the random byte
(44_timers_keys_random.md R150 to R155). -/

namespace Sys2Proof

open Machine

theorem addI_toNat (a : Word) (b : Byte) : (a + zextByte b).toNat = (a.toNat + b.toNat) % 65536 := by
  simp [zextByte]

theorem glyphAddr_lowNibble_toNat (b : Byte) : (glyphAddr (lowNibble b)).toNat = b.toNat % 16 * 5 := by
  simp only [glyphAddr, lowNibble, Config.glyphStride, BitVec.toNat_ofNat]
  omega

/-- Settles O18. -/
theorem indexInstructions : Obligations.IndexInstructions := fun x nnn s =>
  ⟨decode_encode (i := .ldI nnn) rfl, decode_encode (i := .addI x) rfl, decode_encode (i := .ldF x) rfl, rfl,
    ⟨_, rfl, addI_toNat s.I (s.reg x)⟩, _, rfl, glyphAddr_lowNibble_toNat (s.reg x)⟩

/-- Settles O22. -/
theorem timerAccesses : Obligations.TimerAccesses := fun x s =>
  ⟨decode_encode (i := .ldVxDT x) rfl, decode_encode (i := .ldDTVx x) rfl, decode_encode (i := .ldSTVx x) rfl,
    ⟨_, rfl, onlyReg_setReg x s.delay s⟩, rfl, rfl⟩

/-- R151: with no key held the instruction is fetched again. -/
theorem exec_ldVxK_wait {s : State} (h : s.keypad = 0) (x : Reg) :
    exec (.ldVxK x) s = .next { s with pc := s.pc - 2 } := congrArg Host.Outcome.next (if_pos h)

theorem exec_ldVxK_key {s : State} (h : s.keypad ≠ 0) (x : Reg) :
    exec (.ldVxK x) s = .next (s.setReg x (lowestKey s.keypad)) := congrArg Host.Outcome.next (if_neg h)

/-- Settles O23: the key loaded is the lowest set bit of the mask. -/
theorem keyWaitLoadsLowestKey : Obligations.KeyWaitLoadsLowestKey := fun x s =>
  ⟨decode_encode (i := .ldVxK x) rfl, fun h => exec_ldVxK_wait h x, fun h =>
    ⟨lowestKey s.keypad, _, exec_ldVxK_key h x, onlyReg_setReg x _ s, lowestKey_spec s.keypad h⟩⟩

/-- Settles O24: the byte is the one the port draws, and what is left of the port's input is in the next state. -/
theorem rndMasksInputByte : Obligations.RndMasksInputByte := by
  intro x kk s
  refine ⟨decode_encode (i := .rnd x kk) rfl, s.drawRnd.1, _, rfl, rfl, State.reg_setReg_same _ x _,
    fun k hk => State.reg_setReg_other _ x k _ hk, fun b rest h => ?_, fun h => ?_⟩
  · simp [State.drawRnd, h]
  · simp [State.drawRnd, h]

end Sys2Proof
end

section
/-! The memory instructions (43_index_memory.md R143 to R147): within memory each is its transfer, past the end a fault
alone. -/

namespace Sys2Proof.Machine

/-- A block of stores within memory changes no address outside it. -/
theorem Memory.read_writeBytes_outside (m : Memory) {a b : Nat} {vs : List Byte}
    (hfit : a + vs.length ≤ Config.memSize) (hout : b < a ∨ a + vs.length ≤ b) :
    (m.writeBytes a vs).read b = m.read b := by
  rw [Memory.read_writeBytes m a vs hfit, if_neg (by omega)]

/-- Byte `k` of a block of stores within memory is at its `k`-th address. -/
theorem Memory.read_writeBytes_at (m : Memory) {a k : Nat} {vs : List Byte}
    (hfit : a + vs.length ≤ Config.memSize) (hk : k < vs.length) :
    (m.writeBytes a vs).read (a + k) = vs.getD k 0 := by
  rw [Memory.read_writeBytes m a vs hfit, if_pos (by omega), Nat.add_sub_cancel_left]

/-- R144: register `k`, up to `x`, is at `I + k` after the block store. -/
theorem read_blockStore {s : State} {x k : Reg} (hfit : s.I.toNat + x.val + 1 ≤ 4096) (hk : k ≤ x) :
    (s.mem.writeBytes s.I.toNat (regsUpTo s.V x)).read (s.I.toNat + k.val) = s.reg k := by
  have hlen := regsUpTo_length s.V x
  have hkx : k.val ≤ x.val := hk
  rw [Memory.read_writeBytes_at _ (by rw [hlen]; exact hfit) (by omega), regsUpTo_getD s.V x k hkx, State.reg]

end Sys2Proof.Machine

namespace Sys2Proof

open Machine

/-- Settles O19: the three digits are the block stored. -/
theorem bcdStoresDigits : Obligations.BcdStoresDigits := by
  intro x s
  refine ⟨decode_encode (i := .ldB x) rfl, fun hin => ⟨_, withSpan_in hin _, ?_⟩, fun hout => withSpan_out hout _⟩
  have hdigit : ∀ k < 3, (s.mem.writeBytes s.I.toNat (bcdDigits (s.reg x))).read (s.I.toNat + k) =
      (bcdDigits (s.reg x)).getD k 0 := fun k hk => Memory.read_writeBytes_at _ hin hk
  exact ⟨hdigit 0 (by decide), hdigit 1 (by decide), hdigit 2 (by decide),
    fun _ ha => Memory.read_writeBytes_outside _ hin ha⟩

/-- Settles O20: the registers up to `x` are the block stored. -/
theorem blockStoreCopiesRegisters : Obligations.BlockStoreCopiesRegisters := by
  intro x s
  refine ⟨decode_encode (i := .ldMemVx x) rfl, fun hin => ⟨_, withSpan_in hin _, fun k hk => read_blockStore hin hk,
    fun a ha => ?_⟩, fun hout => withSpan_out hout _⟩
  have hlen := regsUpTo_length s.V x
  exact Memory.read_writeBytes_outside _ (by rw [hlen]; exact hin) (by rw [hlen]; exact ha)

/-- Settles O21: the loaded registers come from memory, the others stay. -/
theorem blockLoadCopiesMemory : Obligations.BlockLoadCopiesMemory := by
  intro x s
  have hget := loadRegs_get s.mem s.I.toNat s.V (x.val + 1)
  refine ⟨decode_encode (i := .ldVxMem x) rfl, fun hin => ⟨_, withSpan_in hin _, rfl, fun k hk => ?_, fun k hk => ?_⟩,
    fun hout => withSpan_out hout _⟩
  · exact (hget k).trans (if_pos (Nat.lt_succ_of_le hk))
  · exact (hget k).trans (if_neg (Nat.not_lt.2 hk))

/-- Settles O44: the two registers are at the two addresses that the fetch reads. -/
theorem storeSeenByNextFetch : Obligations.StoreSeenByNextFetch := by
  intro x j k s t h hin hpc hk hkx
  have ht : exec (.ldMemVx x) s = .next { s with mem := s.mem.writeBytes s.I.toNat (regsUpTo s.V x) } :=
    withSpan_in hin _
  have hmem : t.mem = s.mem.writeBytes s.I.toNat (regsUpTo s.V x) := by
    rw [ht] at h
    cases h
    rfl
  have hpc' : t.pc = s.pc := exec_frame h .pc (by simp)
  have hkx' : k.val ≤ x.val := hkx
  have hjx : j ≤ x := Fin.le_def.2 (by omega)
  have hnext : s.pc.toNat + 1 = s.I.toNat + k.val := by omega
  rw [State.fetch_in (by rw [hpc']; omega), hpc', hmem, hnext, hpc, read_blockStore hin hjx, read_blockStore hin hkx]

end Sys2Proof
end

section
/-! The draw (45_display.md R161 to R166), stated with `SpriteLights`: the cells under set sprite bits are toggled, a
lit one among them is the collision, and any of them sets `dirty`. -/

namespace Sys2Proof

open Machine

/-- A cell under a set sprite bit is one that the draw unit's rows hit. -/
theorem spriteLights_iff_rowsHit (s : State) (x y : Reg) (n : Nibble) (row : Fin 32) (col : Fin 64) :
    SpriteLights s x y n row col ↔
      RowsHit s.mem s.I.toNat (s.reg x).toNat (s.reg y).toNat n.toNat row col := by
  simp only [SpriteLights, RowsHit, PixelsHit, wrapRow_eq_iff, wrapCol_eq_iff]
  constructor
  · rintro ⟨r, c, hr, hc, hrow, hcol, hbit⟩
    exact ⟨r, hr, hrow, c, hc, hcol, hbit⟩
  · rintro ⟨r, hr, hrow, c, hc, hcol, hbit⟩
    exact ⟨r, c, hr, hc, hrow, hcol, hbit⟩

/-- The whole of a draw: cells, collision and `dirty`. -/
structure DrawSpec (s : State) (x y : Reg) (n : Nibble) (cv : Canvas) : Prop where
  /-- The toggled cells. -/
  lit : ∀ row col, SpriteLights s x y n row col → cell cv.fb row col = !cell s.fb row col
  /-- The other cells. -/
  unlit : ∀ row col, ¬ SpriteLights s x y n row col → cell cv.fb row col = cell s.fb row col
  /-- R163. -/
  coll : cv.coll = true ↔ ∃ row col, SpriteLights s x y n row col ∧ cell s.fb row col = true
  /-- R164. -/
  dirty : cv.dirty = true ↔ s.dirty = true ∨ ∃ row col, SpriteLights s x y n row col

theorem drawSprite_spec (s : State) (x y : Reg) (n : Nibble) : DrawSpec s x y n (drawSprite s x y n) := by
  have hn : n.toNat < 32 := by have := n.isLt; omega
  obtain ⟨hcell, hcoll, hdirty⟩ := drawRows_spec s.mem s.I.toNat (s.reg x).toNat (s.reg y).toNat
    { fb := s.fb, coll := false, dirty := s.dirty } n.toNat hn
  simp only [← spriteLights_iff_rowsHit] at hcell hcoll hdirty
  exact ⟨fun row col => (hcell row col).1, fun row col => (hcell row col).2, by simpa [drawSprite] using hcoll, hdirty⟩

/-- The state after a draw within memory. -/
def drawn (s : State) (x y : Reg) (n : Nibble) : State :=
  { s with fb := (drawSprite s x y n).fb, dirty := (drawSprite s x y n).dirty }.setReg vf
    (flagByte (drawSprite s x y n).coll)

theorem exec_drw {s : State} {n : Nibble} (h : s.I.toNat + n.toNat ≤ 4096) (x y : Reg) :
    exec (.drw x y n) s = .next (drawn s x y n) := withSpan_in h _

theorem drawn_flag (s : State) (x y : Reg) (n : Nibble) :
    (drawn s x y n).reg 15 = flagByte (drawSprite s x y n).coll := State.reg_setReg_same _ vf _

theorem drawn_reg (s : State) (x y : Reg) (n : Nibble) {k : Reg} (h : k ≠ 15) : (drawn s x y n).reg k = s.reg k :=
  State.reg_setReg_other _ vf k _ h

theorem flagByte_eq_one_iff (f : Bool) : flagByte f = 1 ↔ f = true := by
  cases f <;> decide

/-- Settles O26: the cells and the collision are `drawSprite_spec`'s. -/
theorem drawTogglesSpriteCells : Obligations.DrawTogglesSpriteCells := by
  intro x y n s
  have hspec := drawSprite_spec s x y n
  refine ⟨decode_encode (i := .drw x y n) rfl, fun hin => ⟨_, exec_drw hin x y, rfl,
    fun row col => ⟨hspec.lit row col, hspec.unlit row col⟩, fun hlit => ?_, fun hlit => ?_,
    fun k hk => drawn_reg s x y n hk⟩, fun hout => withSpan_out hout _⟩
  · rw [drawn_flag, hspec.coll.2 hlit]; rfl
  · rw [drawn_flag, Bool.eq_false_iff.2 fun e => hlit (hspec.coll.1 e)]; rfl

/-- A byte is not zero if and only if one of its eight pixels is set. -/
theorem byte_ne_zero_iff (b : Byte) : b ≠ 0 ↔ ∃ c, c < 8 ∧ b.getLsbD (7 - c) = true := by
  constructor
  · intro h
    by_contra hc
    refine h (BitVec.eq_of_getLsbD_eq fun i hi => ?_)
    have hbit : b.getLsbD i ≠ true := fun e => hc ⟨7 - i, by omega, by rwa [show 7 - (7 - i) = i by omega]⟩
    simpa using hbit
  · rintro ⟨c, -, hbit⟩ rfl
    simp at hbit

/-- Wherever it is drawn, a sprite has a set bit if and only if one of its bytes is not zero. -/
theorem exists_spriteLights_iff (s : State) (x y : Reg) (n : Nibble) :
    (∃ row col, SpriteLights s x y n row col) ↔ ∃ r, r < n.toNat ∧ s.mem.read (s.I.toNat + r) ≠ 0 := by
  simp only [byte_ne_zero_iff]
  constructor
  · rintro ⟨row, col, r, c, hr, hc, -, -, hbit⟩
    exact ⟨r, hr, c, hc, hbit⟩
  · rintro ⟨r, hr, c, hc, hbit⟩
    exact ⟨wrapRow _, wrapCol _, r, c, hr, hc, rfl, rfl, hbit⟩

/-- Settles O27: the draw sets `dirty` when a sprite bit is set, which is when a byte is not zero. -/
theorem drawDirtyIffNonzeroByte : Obligations.DrawDirtyIffNonzeroByte := by
  intro x y n s hin
  refine ⟨_, exec_drw hin x y, ?_⟩
  rw [← exists_spriteLights_iff s x y n]
  exact (drawSprite_spec s x y n).dirty

/-- A draw leaves what it reads, so a second one falls on the same cells; VF must not be a coordinate. -/
theorem spriteLights_drawn (s : State) {x y : Reg} (n : Nibble) (hx : x ≠ 15) (hy : y ≠ 15) (row : Fin 32)
    (col : Fin 64) : SpriteLights (drawn s x y n) x y n row col ↔ SpriteLights s x y n row col := by
  simp only [SpriteLights, drawn_reg s x y n hx, drawn_reg s x y n hy]
  rfl

/-- Settles O28: the second draw toggles the same cells back, and the lit ones among them are those the first turned
on. -/
theorem drawTwiceRestoresScreen : Obligations.DrawTwiceRestoresScreen := by
  intro x y n s t hx hy hin h
  rw [exec_drw hin] at h
  cases h
  have hfirst := drawSprite_spec s x y n
  have hsecond := drawSprite_spec (drawn s x y n) x y n
  have hsame := spriteLights_drawn s n hx hy
  refine ⟨_, exec_drw (s := drawn s x y n) hin x y, framebuffer_ext fun row col => ?_, ?_⟩
  · by_cases hl : SpriteLights s x y n row col
    · have hoff : cell (drawn s x y n).fb row col = !cell s.fb row col := hfirst.lit row col hl
      exact (hsecond.lit row col ((hsame row col).2 hl)).trans (by rw [hoff, Bool.not_not])
    · exact (hsecond.unlit row col (mt (hsame row col).1 hl)).trans (hfirst.unlit row col hl)
  · rw [drawn_flag, flagByte_eq_one_iff, hsecond.coll]
    refine exists_congr fun row => exists_congr fun col => ?_
    rw [hsame row col]
    constructor
    · rintro ⟨hl, hon⟩
      exact ⟨by simpa using (hfirst.lit row col hl).symm.trans hon, hon⟩
    · rintro ⟨hoff, hon⟩
      refine ⟨by_contra fun hl => ?_, hon⟩
      have hkept : cell (drawn s x y n).fb row col = cell s.fb row col := hfirst.unlit row col hl
      rw [hkept, hoff] at hon
      cases hon

end Sys2Proof
end

section
/-! The fetch and the step of a running core (30_encoding.md R50, R87 to R89). -/

namespace Sys2Proof

theorem opX_val (op : Word) : (opX op).val = op.toNat / 256 % 16 := by
  show (op.extractLsb' 8 4).toNat = _
  simp [BitVec.extractLsb'_toNat, Nat.shiftRight_eq_div_pow]

theorem opY_val (op : Word) : (opY op).val = op.toNat / 16 % 16 := by
  show (op.extractLsb' 4 4).toNat = _
  simp [BitVec.extractLsb'_toNat, Nat.shiftRight_eq_div_pow]

/-- R50: the byte at the lower address is the high one. -/
theorem opcodeOfBytes_toNat (hi lo : Byte) : (opcodeOfBytes hi lo).toNat = hi.toNat * 256 + lo.toNat := by
  rw [opcodeOfBytes, BitVec.toNat_append, ← Nat.shiftLeft_add_eq_or_of_lt lo.isLt, Nat.shiftLeft_eq]

theorem decodeBytes_ok_iff (hi lo : Byte) (i : Instr) :
    decodeBytes [hi, lo] = .ok (i, []) ↔ decode (opcodeOfBytes hi lo) = .ok i := by
  cases h : decode (opcodeOfBytes hi lo) <;> simp [decodeBytes, h]

theorem decodeBytes_error_iff (hi lo : Byte) (r : Reject) :
    decodeBytes [hi, lo] = .error r ↔ decode (opcodeOfBytes hi lo) = .error r := by
  cases h : decode (opcodeOfBytes hi lo) <;> simp [decodeBytes, h]

/-- The opcode table's word is laid out in two bytes and read back. -/
theorem decodeTableWord_some_iff (nbits w : Nat) (i : Instr) :
    decodeTableWord nbits w = some i ↔ decode (tableWord nbits w) = .ok i := by
  cases h : decode (tableWord nbits w) <;> simp [decodeTableWord, decodeBytes, h]

end Sys2Proof

namespace Sys2Proof.Machine

/-- After an instruction: the cost is charged, unless a fault was raised. -/
theorem finishInstr_unfaulted {u : State} (h : u.fault = none) (i : Instr) :
    finishInstr i (.next u) = .next (charge i u) := by
  simp only [finishInstr, h]

theorem finishInstr_faulted {u : State} (h : u.fault ≠ none) (i : Instr) : finishInstr i (.next u) = .next u := by
  obtain ⟨f, hf⟩ := Option.ne_none_iff_exists'.1 h
  simp only [finishInstr, hf]

end Sys2Proof.Machine

namespace Sys2Proof

open Machine

/-- R87. -/
theorem Running.step_fetch_fault {s : State} (h : Running s) (hpc : 4095 < s.pc.toNat + 1) :
    step s = .next (s.hostTurn.withFault .outOfBounds) := by
  simp only [h.step_eq, runInstr, State.fetch_out (s := s.hostTurn) hpc, raise]

/-- R88, R201: an opcode that decodes to nothing. -/
theorem Running.step_decode_error {s : State} (h : Running s) {op : Word} {r : Reject} (hf : s.fetch = some op)
    (hd : decode op = .error r) : step s = .next (s.hostTurn.advance.withFault .decodeError) := by
  simp only [h.step_eq, runInstr, show s.hostTurn.fetch = some op from hf, hd, raise]

/-- R88: an opcode that decodes to `i` runs `i`, on the state with `pc` advanced. -/
theorem Running.step_instr {s : State} (h : Running s) {op : Word} {i : Instr} (hf : s.fetch = some op)
    (hd : decode op = .ok i) : ∃ t, exec i s.hostTurn.advance = .next t ∧
      (t.fault = none → step s = .next (charge i t)) ∧ (t.fault ≠ none → step s = .next t) := by
  obtain ⟨t, ht, -⟩ := exec_next_effect i s.hostTurn.advance
  have hstep : step s = finishInstr i (.next t) := by
    simp only [h.step_eq, runInstr, show s.hostTurn.fetch = some op from hf, hd, ht]
  exact ⟨t, ht, fun hn => hstep.trans (finishInstr_unfaulted hn i), fun hn => hstep.trans (finishInstr_faulted hn i)⟩

/-- Settles O38: each field of the word is a part of one of the two bytes. -/
theorem fetchIsBigEndian : Obligations.FetchIsBigEndian := by
  intro s op h
  obtain ⟨hi, lo, hhi, hlo, rfl⟩ : ∃ hi lo, s.mem.read s.pc.toNat = hi ∧ s.mem.read (s.pc.toNat + 1) = lo ∧
      op = opcodeOfBytes hi lo := by
    unfold State.fetch at h
    split at h
    · cases h
    · exact ⟨_, _, rfl, rfl, (Option.some.inj h).symm⟩
  have hword := opcodeOfBytes_toNat hi lo
  have := lo.isLt
  rw [hhi, hlo, opFam_toNat, opX_val, opY_val, opN_toNat]
  refine ⟨hword, by omega, by omega, by omega, by omega, BitVec.eq_of_toNat_eq ?_⟩
  rw [opKK_toNat]
  omega

/-- Settles O39. -/
theorem fetchPastEndFaults : Obligations.FetchPastEndFaults := fun _ h hpc => h.step_fetch_fault hpc

/-- Settles O40: the two bytes are the opcode fetched. -/
theorem stepRunsDecodedInstruction : Obligations.StepRunsDecodedInstruction := by
  intro s h hpc
  have hf := State.fetch_in hpc
  exact ⟨fun i hd => h.step_instr hf ((decodeBytes_ok_iff _ _ i).1 hd),
    fun r hd => h.step_decode_error hf ((decodeBytes_error_iff _ _ r).1 hd)⟩

/-- R82: a SYS opcode decodes to SYS. -/
theorem decode_sysOpcode {op : Word} (h : SysOpcode op) : decode op = .ok (.sys (opNNN op)) := by
  obtain ⟨hfam, hcls, hret⟩ := h
  have hf : opFam op = 0x0#4 := BitVec.eq_of_toNat_eq (by rw [opFam_toNat, hfam]; rfl)
  have hcls' : op ≠ 0x00E0#16 := fun e => hcls (by rw [e]; rfl)
  have hret' : op ≠ 0x00EE#16 := fun e => hret (by rw [e]; rfl)
  simp only [decode, hf, decode0, if_neg hcls', if_neg hret']

/-- Settles O41: an illegal opcode is one that the decoder rejects, and SYS raises its fault itself. -/
theorem illegalOpcodeRaisesDecodeError : Obligations.IllegalOpcodeRaisesDecodeError := by
  rintro s op h hf (hill | ⟨hsys, hpolicy⟩)
  · obtain ⟨r, hd⟩ := (decoderRejectsExactlyIllegal op).2 hill
    exact h.step_decode_error hf hd
  · obtain ⟨t, ht, -, hstep⟩ := h.step_instr hf (decode_sysOpcode hsys)
    obtain ⟨-, hexec⟩ := sysFollowsPolicy
    obtain ⟨-, hfault, -⟩ := hexec (opNNN op) s.hostTurn.advance
    rw [hfault hpolicy] at ht
    cases ht
    exact hstep nofun

/-- Settles O42: the cost is the one drawn. -/
theorem costChargedAndLoopTested : Obligations.CostChargedAndLoopTested := by
  intro i t
  refine ⟨(t.env.drawCost i).1, Env.drawCost_pos t.env i, fun d rest h hd => ?_, rfl, Env.drawCost_hostIn t.env i, ?_⟩
  · simp only [Env.drawCost, h]
    exact max_eq_right hd
  · show (t.env.drawCost i).2.rndIn = t.env.rndIn
    unfold Env.drawCost
    split <;> rfl

/-- A placed word stands in a running core (log entry 11). -/
theorem running_placeWord (s : State) (w : Word) : Running (placeWord s w) :=
  ⟨rfl, rfl, fun rest => dropResets_no_rst s.env.hostIn rest⟩

/-- Settles O43: the placed word is the one fetched. -/
theorem placedWordRunsNext : Obligations.PlacedWordRunsNext := fun s w i h =>
  (running_placeWord s (tableWord 16 w)).step_instr (placeWord_fetch s (tableWord 16 w))
    ((decodeTableWord_some_iff 16 w i).1 h)

end Sys2Proof
end

section
/-! The sequencer's own steps (46_frame_sequencer.md, 60_exceptions.md R209, 70_reset_and_hazards.md R234 to R238): the
core's turn by the fault register and the phase, and the host's calls. -/

namespace Sys2Proof.Machine

/-- Without a reset at the head of the host's calls a step is the core's turn. -/
theorem step_coreStep {s : State} (h : ∀ rest, s.env.hostIn ≠ .rst :: rest) : step s = coreStep exec s.hostTurn :=
  (step_cases s).elim (fun ⟨rest, hr, _⟩ => absurd hr (h rest)) (·.2)

/-- A call at the head that is no `wait` is not used up by the core's turn. -/
theorem step_coreStep_self {s : State} (h : ∀ rest, s.env.hostIn ≠ .rst :: rest)
    (hw : dropWait s.env.hostIn = s.env.hostIn) : step s = coreStep exec s := by
  rw [step_coreStep h, State.hostTurn, hw]
  rfl

theorem coreStep_faulted {s : State} {f : CoreFault} (hf : s.fault = some f) : coreStep exec s = haltedStep f s := by
  simp only [coreStep, hf]

theorem coreStep_awaitLoad {s : State} (hf : s.fault = none) (hp : s.phase = .awaitLoad) :
    coreStep exec s = bootStep s := by
  simp only [coreStep, hf, hp]

theorem coreStep_ready {s : State} (hf : s.fault = none) (hp : s.phase = .ready) : coreStep exec s = readyStep s := by
  simp only [coreStep, hf, hp]

theorem coreStep_ending {s : State} (hf : s.fault = none) (hp : s.phase = .ending) :
    coreStep exec s = .next (endFrame s) := by
  simp only [coreStep, hf, hp]

/-- A frame start at the head of the calls: the core's turn finds it there. -/
theorem step_of_frame {s : State} {keys : Word} {rest : List HostCall} (h : s.env.hostIn = .frame keys :: rest) :
    step s = coreStep exec s := step_coreStep_self (by simp [h]) (by simp [h, dropWait])

theorem step_of_load {s : State} {img : List Byte} {rest : List HostCall} (h : s.env.hostIn = .load img :: rest) :
    step s = coreStep exec s := step_coreStep_self (by simp [h]) (by simp [h, dropWait])

end Sys2Proof.Machine

namespace Sys2Proof

open Machine

/-- Settles O45. -/
theorem frameStartLatchesKeys : Obligations.FrameStartLatchesKeys := by
  intro s keys rest hf hp h
  rw [step_of_frame h, coreStep_ready hf hp]
  simp only [readyStep, h]
  rfl

/-- Settles O46: the step is the frame's end, and a tick is a truncated subtraction. -/
theorem frameEndTicksAndPresents : Obligations.FrameEndTicksAndPresents := by
  intro s hf hp hr
  refine ⟨endFrame s.hostTurn, ?_, rfl, tickTimer_toNat s.delay, tickTimer_toNat s.sound, _, rfl, bne_iff_ne⟩
  rw [step_coreStep hr]
  exact coreStep_ending (s := s.hostTurn) hf hp

/-- Settles O47, by induction on the number of frame ends. -/
theorem timerCountsFrames : Obligations.TimerCountsFrames := by
  intro j s
  induction j with
  | zero => exact ⟨rfl, rfl⟩
  | succ j ih =>
    obtain ⟨hdelay, hsound⟩ := ih
    rw [Function.iterate_succ_apply']
    constructor
    · show (tickTimer _).toNat = _
      rw [tickTimer_toNat, hdelay, Nat.sub_sub]
    · show (tickTimer _).toNat = _
      rw [tickTimer_toNat, hsound, Nat.sub_sub]

/-- Settles O50. -/
theorem haltedCoreStops : Obligations.HaltedCoreStops := by
  intro s f hf
  refine ⟨fun h => ?_, fun keys rest h => ?_⟩
  · rw [step_coreStep_self (by simp [h]) (by simp [h, dropWait]), coreStep_faulted hf]
    simp only [haltedStep, h]
  · rw [step_of_frame h, coreStep_faulted hf]
    simp only [haltedStep, h]
    rfl

/-- R234: the one load after reset. -/
theorem step_load {s : State} {img : List Byte} {rest : List HostCall} (hf : s.fault = none) (hp : s.phase = .awaitLoad)
    (h : s.env.hostIn = .load img :: rest) : step s = .next (loadImage img (s.withHostIn rest)) := by
  rw [step_of_load h, coreStep_awaitLoad hf hp]
  simp only [bootStep, h]

/-- Settles O54: the image is one block of stores, which fits exactly when it is not too large. -/
theorem programLoadCopiesImage : Obligations.ProgramLoadCopiesImage := by
  intro s img rest hf hp h
  rw [step_load hf hp h]
  rcases loadImage_cases img (s.withHostIn rest) with ⟨hle, heq⟩ | ⟨hgt, heq⟩
  · have hfit : 512 + img.length ≤ Config.memSize := by simp only [Config.memSize]; omega
    refine ⟨fun _ => ⟨_, congrArg Host.Outcome.next heq, fun k hk => ?_, fun a ha => ?_⟩, fun hgt => by omega⟩
    · rw [State.withHostIn_mem, Memory.read_writeBytes_at _ hfit hk, List.getD_eq_getElem _ _ hk,
        List.getElem?_eq_getElem hk]
    · exact Memory.read_writeBytes_outside _ hfit ha
  · exact ⟨fun hle => by omega, fun _ => congrArg Host.Outcome.next heq⟩

/-- Settles O55. -/
theorem outOfOrderHostCallsRefused : Obligations.OutOfOrderHostCallsRefused := by
  intro s img keys rest
  refine ⟨fun hf hp h => ?_, fun hf hp h => ?_, fun hf h => ?_⟩
  · rw [step_of_frame h, coreStep_awaitLoad hf hp]
    simp only [bootStep, h]
  · rw [step_of_load h, coreStep_ready hf hp]
    simp only [readyStep, h]
  · obtain ⟨f, hf⟩ := Option.ne_none_iff_exists'.1 hf
    rw [step_of_load h, coreStep_faulted hf]
    simp only [haltedStep, h]

end Sys2Proof
end

section
/-! What a step can do, whole: `StepTo s t` has one constructor for each way in which the machine goes on, and `step_to`
is the inversion that the invariants of every step are derived from. -/

namespace Sys2Proof.Machine

theorem dropWait_suffix (l : List HostCall) : dropWait l <:+ l := by
  unfold dropWait
  split
  · exact List.suffix_cons _ _
  · exact List.suffix_refl _

/-- A call at the head when the core takes its turn is used up. -/
theorem suffix_of_dropWait {l rest : List HostCall} {c : HostCall} (h : dropWait l = c :: rest) : rest <:+ l :=
  (List.suffix_cons c rest).trans (h ▸ dropWait_suffix l)

/-- The ways in which the machine goes on. -/
inductive StepTo (s : State) : State → Prop
  /-- The host resets the core (R230). -/
  | reset (rest : List HostCall) (hcall : s.env.hostIn = .rst :: rest) :
    StepTo s (resetWith s.params { s.env with hostIn := rest })
  /-- A halted core uses up calls alone (R209). -/
  | halted (rest : List HostCall) (hfault : s.fault ≠ none) (hcall : rest <:+ s.env.hostIn) :
    StepTo s (s.withHostIn rest)
  /-- A core that waits for its load or for a frame (R222). -/
  | idle : StepTo s s.hostTurn
  /-- The one load after reset (R234). -/
  | load (img : List Byte) (rest : List HostCall) (hcall : dropWait s.env.hostIn = .load img :: rest) :
    StepTo s (loadImage img (s.withHostIn rest))
  /-- A frame starts (R171, R174). -/
  | frameStart (keys : Word) (rest : List HostCall) (hfault : s.fault = none) (hphase : s.phase = .ready)
      (hcall : dropWait s.env.hostIn = .frame keys :: rest) : StepTo s (startFrame keys (s.withHostIn rest))
  /-- A frame ends (R171). -/
  | frameEnd : StepTo s (endFrame s.hostTurn)
  /-- The fetch faults (R87). -/
  | fetchFault : StepTo s (s.hostTurn.withFault .outOfBounds)
  /-- The decoder faults (R201). -/
  | decodeFault (hpc : s.pc.toNat + 1 ≤ 4095) : StepTo s (s.hostTurn.advance.withFault .decodeError)
  /-- An instruction completes and is charged (R88, R176). -/
  | instr (i : Instr) (u : State) (hpc : s.pc.toNat + 1 ≤ 4095) (hexec : exec i s.hostTurn.advance = .next u)
      (hfault : u.fault = none) : StepTo s (charge i u)
  /-- An instruction raises a fault (R183, R208). -/
  | instrFault (i : Instr) (u : State) (hpc : s.pc.toNat + 1 ≤ 4095) (hexec : exec i s.hostTurn.advance = .next u)
      (hfault : u.fault ≠ none) : StepTo s u

theorem haltedStep_next {f : CoreFault} {s t : State} (h : haltedStep f s = .next t) :
    ∃ rest, rest <:+ s.env.hostIn ∧ t = s.withHostIn rest := by
  unfold haltedStep at h
  split at h
  case h_1 keys rest hl => cases h; exact ⟨rest, hl ▸ List.suffix_cons _ _, rfl⟩
  case h_2 | h_5 => cases h
  case h_3 | h_4 => cases h; exact ⟨s.env.hostIn, List.suffix_refl _, rfl⟩

theorem bootStep_next {s t : State} (h : bootStep s = .next t) :
    t = s ∨ ∃ img rest, s.env.hostIn = .load img :: rest ∧ t = loadImage img (s.withHostIn rest) := by
  unfold bootStep at h
  split at h
  case h_1 img rest hl => cases h; exact .inr ⟨img, rest, hl, rfl⟩
  case h_2 => cases h
  case h_3 | h_4 | h_5 => cases h; exact .inl rfl

theorem readyStep_next {s t : State} (h : readyStep s = .next t) :
    t = s ∨ ∃ keys rest, s.env.hostIn = .frame keys :: rest ∧ t = startFrame keys (s.withHostIn rest) := by
  unfold readyStep at h
  split at h
  case h_1 keys rest hl => cases h; exact .inr ⟨keys, rest, hl, rfl⟩
  case h_2 => cases h
  case h_3 | h_4 | h_5 => cases h; exact .inl rfl

theorem runInstr_stepTo {s t : State} (h : runInstr exec s.hostTurn = .next t) : StepTo s t := by
  rcases runInstr_cases exec s.hostTurn with ⟨-, he⟩ | ⟨op, r, hpc, -, -, he⟩ | ⟨op, i, hpc, -, -, he⟩ <;>
    rw [he] at h
  · cases h
    exact .fetchFault
  · cases h
    exact .decodeFault hpc
  · obtain ⟨u, hu, ⟨hf, rfl⟩ | ⟨hf, rfl⟩⟩ := finishInstr_next h
    · exact .instr i u hpc hu hf
    · exact .instrFault i t hpc hu hf

/-- The core's turn, by the fault register and the phase. -/
theorem coreStep_stepTo {s t : State} (h : coreStep exec s.hostTurn = .next t) : StepTo s t := by
  unfold coreStep at h
  split at h
  · next f hf =>
    obtain ⟨rest, hcall, rfl⟩ := haltedStep_next h
    exact .halted rest (by simp [show s.fault = some f from hf]) (hcall.trans (dropWait_suffix _))
  · next hf =>
    split at h
    · obtain rfl | ⟨img, rest, hcall, rfl⟩ := bootStep_next h
      · exact .idle
      · exact .load img rest hcall
    · next hp =>
      obtain rfl | ⟨keys, rest, hcall, rfl⟩ := readyStep_next h
      · exact .idle
      · exact .frameStart keys rest hf hp hcall
    · exact runInstr_stepTo h
    · cases h
      exact .frameEnd

/-- The inversion of a step. -/
theorem step_to {s t : State} (h : step s = .next t) : StepTo s t := by
  rcases step_cases s with ⟨rest, hcall, he⟩ | ⟨-, he⟩ <;> rw [he] at h
  · cases h
    exact .reset rest hcall
  · exact coreStep_stepTo h

/-! ## Runs -/

theorem run_succ_of_step {s u : State} (h : step s = .next u) (k : Nat) :
    Host.Core.run core (k + 1) s = Host.Core.run core k u := by
  have hstep : core.step s = .next u := h
  simp only [Host.Core.run, hstep]

theorem run_succ_next {k : Nat} {s t : State} (h : Host.Core.run core (k + 1) s = .next t) :
    ∃ u, step s = .next u ∧ Host.Core.run core k u = .next t := by
  cases hs : step s with
  | next u => exact ⟨u, rfl, (run_succ_of_step hs k).symm.trans h⟩
  | fault r | refused r =>
    have hstep : core.step s = _ := hs
    simp only [Host.Core.run, hstep] at h
    cases h

/-- What every step keeps holds after any number of steps. -/
theorem run_keeps {P : State → Prop} (hstep : ∀ u v, P u → step u = .next v → P v) {k : Nat} {s t : State} (hs : P s)
    (h : Host.Core.run core k s = .next t) : P t := by
  induction k generalizing s with
  | zero => cases h; exact hs
  | succ k ih =>
    obtain ⟨u, hu, hrun⟩ := run_succ_next h
    exact ih (hstep s u hs hu) hrun

end Sys2Proof.Machine
end

section
/-! What every step keeps: the parameters, the keypad latch but for a frame start and a reset, and a halted core's state
(10_state.md R35, R45; 60_exceptions.md R209). -/

namespace Sys2Proof

open Machine

theorem exec_params {i : Instr} {s t : State} (h : exec i s = .next t) : t.params = s.params := by
  obtain ⟨-, -, hparams, -⟩ := sequencerStateUntouched i s t h
  exact hparams

theorem exec_keypad {i : Instr} {s t : State} (h : exec i s = .next t) : t.keypad = s.keypad :=
  (sequencerStateUntouched i s t h).1

theorem loadImage_params (img : List Byte) (s : State) : (loadImage img s).params = s.params := by
  rcases loadImage_cases img s with ⟨-, h⟩ | ⟨-, h⟩ <;> simp [h]

theorem loadImage_keypad (img : List Byte) (s : State) : (loadImage img s).keypad = s.keypad := by
  rcases loadImage_cases img s with ⟨-, h⟩ | ⟨-, h⟩ <;> simp [h]

/-- Settles O56: a reset keeps the parameters, and no other way to go on writes them. -/
theorem parametersNeverChange : Obligations.ParametersNeverChange := by
  intro s t h
  cases step_to h with
  | load img rest => exact loadImage_params img _
  | instr i u _ hexec => exact (exec_params hexec :)
  | instrFault i _ _ hexec => exact (exec_params hexec :)
  | _ => rfl

/-- Settles O49: of the ways to go on, a frame start and a reset write the latch. -/
theorem keypadChangesOnlyAtFrameStart : Obligations.KeypadChangesOnlyAtFrameStart := by
  intro s t h
  cases step_to h with
  | reset rest hcall => exact .inr (.inr ⟨rest, hcall, rfl⟩)
  | frameStart keys rest hfault hphase hcall => exact .inr (.inl ⟨keys, rest, hcall, hfault, hphase, rfl⟩)
  | load img rest => exact .inl (loadImage_keypad img _)
  | instr i u _ hexec => exact .inl (exec_keypad hexec :)
  | instrFault i _ _ hexec => exact .inl (exec_keypad hexec :)
  | _ => exact .inl rfl

/-- A step of a halted core, when no reset is given, uses up calls of the host and nothing else. -/
theorem step_halted {s t : State} (hf : s.fault ≠ none) (hr : ∀ c ∈ s.env.hostIn, c ≠ .rst) (h : step s = .next t) :
    ∃ rest, rest <:+ s.env.hostIn ∧ t = s.withHostIn rest := by
  rcases step_cases s with ⟨rest, hcall, -⟩ | ⟨-, he⟩
  · exact absurd rfl (hr .rst (by simp [hcall]))
  · obtain ⟨f, hf⟩ := Option.ne_none_iff_exists'.1 hf
    rw [he, coreStep_faulted (s := s.hostTurn) hf] at h
    obtain ⟨rest, hcall, rfl⟩ := haltedStep_next h
    exact ⟨rest, hcall.trans (dropWait_suffix _), rfl⟩

/-- Settles O51: after any number of steps the state is the first one with fewer calls pending. -/
theorem haltedCoreKeepsState : Obligations.HaltedCoreKeepsState := by
  intro k s t hf hr h
  have hinv : ∃ rest, rest <:+ s.env.hostIn ∧ t = s.withHostIn rest := by
    refine run_keeps (P := fun u => ∃ rest, rest <:+ s.env.hostIn ∧ u = s.withHostIn rest) ?_
      ⟨s.env.hostIn, List.suffix_refl _, rfl⟩ h
    rintro _ v ⟨rest, hcall, rfl⟩ hv
    obtain ⟨rest', hcall', rfl⟩ := step_halted (s := s.withHostIn rest) hf (fun c hc => hr c (hcall.subset hc)) hv
    exact ⟨rest', hcall'.trans hcall, rfl⟩
  obtain ⟨rest, -, rfl⟩ := hinv
  rfl

end Sys2Proof
end

section
/-! The invariant (10_state.md R25, R30): each of its four parts over every instruction, then over every step. -/

namespace Sys2Proof

open Machine

/-- R54: the two instructions that store keep the canonical form. -/
theorem exec_mem_wf {i : Instr} {s t : State} (h : exec i s = .next t) (hs : s.mem.wf) : t.mem.wf := by
  by_cases hw : .mem ∈ writtenBy i
  · have he := exec_effect h
    rcases (mem_written_iff i).1 hw with ⟨x, rfl⟩ | ⟨x, rfl⟩
    all_goals
      rcases he with ⟨-, rfl⟩ | ⟨-, rfl⟩
      · exact Memory.writeBytes_wf hs _ _
      · exact hs
  · rw [show t.mem = s.mem from exec_frame h .mem hw]
    exact hs

/-- R30: CALL counts up below 16, RET down above 0. -/
theorem exec_sp_le {i : Instr} {s t : State} (h : exec i s = .next t) (hs : s.sp.toNat ≤ Config.stackDepth) :
    t.sp.toNat ≤ Config.stackDepth := by
  by_cases hw : .sp ∈ writtenBy i
  · have he := exec_effect h
    simp only [Config.stackDepth] at *
    rcases (sp_written_iff i).1 hw with rfl | ⟨nnn, rfl⟩
    · rcases he with ⟨-, rfl⟩ | ⟨hne, rfl⟩
      · exact hs
      · show (s.sp - 1).toNat ≤ 16
        bv_omega
    · rcases he with ⟨-, rfl⟩ | ⟨hne, rfl⟩
      · exact hs
      · show (s.sp + 1).toNat ≤ 16
        bv_omega
  · rw [show t.sp = s.sp from exec_frame h .sp hw]
    exact hs

/-- The entries below `sp` are at most 4096. -/
def StackBounded (s : State) : Prop := ∀ k : Fin 16, k.val < s.sp.toNat → (s.stack[k.val]).toNat ≤ 4096

/-- R25: CALL pushes an advanced `pc`, RET takes an entry away. -/
theorem exec_stackBounded {i : Instr} {s t : State} (h : exec i s = .next t) (hpc : s.pc.toNat ≤ 4096)
    (hs : StackBounded s) : StackBounded t := by
  by_cases hw : .sp ∈ writtenBy i
  · have he := exec_effect h
    rcases (sp_written_iff i).1 hw with rfl | ⟨nnn, rfl⟩
    · rcases he with ⟨-, rfl⟩ | ⟨hne, rfl⟩
      · exact hs
      · intro k hk
        exact hs k (by change k.val < (s.sp - 1).toNat at hk; bv_omega)
    · rcases he with ⟨-, rfl⟩ | ⟨hne, rfl⟩
      · exact hs
      · intro k hk
        change k.val < (s.sp + 1).toNat at hk
        show ((s.stack.setIfInBounds s.sp.toNat s.pc)[k.val]).toNat ≤ 4096
        rw [Vector.getElem_setIfInBounds]
        split
        · exact hpc
        · next hk' => exact hs k (by bv_omega)
  · have hstack : t.stack = s.stack := exec_frame h .stack
      (by rw [stack_written_iff]; exact fun hc => hw ((sp_written_iff i).2 (.inr hc)))
    have hsp : t.sp = s.sp := exec_frame h .sp hw
    intro k hk
    simp only [hstack]
    exact hs k (by rwa [hsp] at hk)

theorem SkipEffect.pc_le {c : Prop} {s t : State} (h : SkipEffect c s t) (hpc : s.pc.toNat ≤ 4096) :
    t.pc.toNat ≤ 4350 := by
  rcases h with ⟨-, rfl⟩ | ⟨-, rfl⟩
  · show (s.pc + 2).toNat ≤ 4350
    bv_omega
  · omega

theorem zextAddr_toNat_lt (nnn : Addr) : (zextAddr nnn).toNat < 4096 := by
  have := nnn.isLt
  simp only [zextAddr, BitVec.toNat_setWidth]
  omega

/-- R25: on entry `pc` is an advanced fetch address, 2 to 4096; afterwards it is at most 4350, the sum that JP V0 can
reach. -/
theorem exec_pc_le {i : Instr} {s t : State} (h : exec i s = .next t) (hlow : 2 ≤ s.pc.toNat)
    (hpc : s.pc.toNat ≤ 4096) (hsp : s.sp.toNat ≤ Config.stackDepth) (hs : StackBounded s) : t.pc.toNat ≤ 4350 := by
  have he := exec_effect h
  cases i with
  | seImm | sneImm | seReg | sneReg | skp | sknp => exact SkipEffect.pc_le he hpc
  | ret =>
    rcases he with ⟨-, rfl⟩ | ⟨hne, rfl⟩
    · show s.pc.toNat ≤ 4350
      omega
    · simp only [Config.stackDepth] at hsp
      have hlt : s.sp.toNat - 1 < 16 := by omega
      have hentry := hs ⟨s.sp.toNat - 1, hlt⟩ (by show s.sp.toNat - 1 < s.sp.toNat; bv_omega)
      have htop : stackTop s.stack s.sp.toNat = s.stack[s.sp.toNat - 1] := by simp [stackTop, hlt]
      show (stackTop s.stack s.sp.toNat).toNat ≤ 4350
      rw [htop]
      exact hentry.trans (by decide)
  | call nnn =>
    have := zextAddr_toNat_lt nnn
    rcases he with ⟨-, rfl⟩ | ⟨-, rfl⟩
    · show s.pc.toNat ≤ 4350
      omega
    · show (zextAddr nnn).toNat ≤ 4350
      omega
  | jp nnn =>
    have := zextAddr_toNat_lt nnn
    subst he
    show (zextAddr nnn).toNat ≤ 4350
    omega
  | jpV0 nnn =>
    have := nnn.isLt
    have := (s.reg 0).isLt
    subst he
    show (zextAddr nnn + zextByte (s.reg 0)).toNat ≤ 4350
    rw [jpV0_toNat]
    omega
  | ldVxK x =>
    rcases he with ⟨-, rfl⟩ | ⟨-, rfl⟩
    · show (s.pc - 2).toNat ≤ 4350
      bv_omega
    · show s.pc.toNat ≤ 4350
      omega
  | _ =>
    rw [show t.pc = s.pc from exec_frame h .pc (by simp)]
    omega

/-- An instruction keeps the invariant when it is entered with an advanced fetch address in `pc`. -/
theorem exec_inv {i : Instr} {s t : State} (h : exec i s = .next t) (hlow : 2 ≤ s.pc.toNat) (hpc : s.pc.toNat ≤ 4096)
    (hs : Inv s) : Inv t where
  mem_wf := exec_mem_wf h hs.mem_wf
  sp_le := exec_sp_le h hs.sp_le
  pc_le := exec_pc_le h hlow hpc hs.sp_le hs.stack_le
  stack_le := exec_stackBounded h hpc hs.stack_le

/-- The reset state meets the invariant, whatever the parameters and the calls are, when memory is canonical. -/
theorem inv_of_reset_mem {m : Memory} (h : m.wf) (p : Params) (e : Env) :
    Inv { State.reset with mem := m, params := p, env := e } where
  mem_wf := h
  sp_le := (by decide : State.reset.sp.toNat ≤ Config.stackDepth)
  pc_le := (by decide : State.reset.pc.toNat ≤ 4350)
  stack_le _ hk := absurd hk (Nat.not_lt_zero _)

/-- Settles O57: memory lists nothing at reset. -/
theorem resetMeetsInvariant : Obligations.ResetMeetsInvariant :=
  inv_of_reset_mem Memory.nil_wf State.reset.params State.reset.env

/-- The invariant speaks of memory, the stack and `pc` alone. -/
theorem Inv.congr {s t : State} (h : Inv s) (hmem : t.mem = s.mem) (hsp : t.sp = s.sp) (hpc : t.pc = s.pc)
    (hstack : t.stack = s.stack) : Inv t where
  mem_wf := hmem ▸ h.mem_wf
  sp_le := hsp ▸ h.sp_le
  pc_le := hpc ▸ h.pc_le
  stack_le k hk := by
    simp only [hstack]
    exact h.stack_le k (hsp ▸ hk)

theorem Inv.loadImage {s : State} (h : Inv s) (img : List Byte) : Inv (loadImage img s) := by
  rcases loadImage_cases img s with ⟨-, he⟩ | ⟨-, he⟩ <;> rw [he]
  · exact ⟨Memory.writeBytes_wf h.mem_wf _ _, h.sp_le, h.pc_le, h.stack_le⟩
  · exact h.congr rfl rfl rfl rfl

/-- R88: after a fetch within memory `pc` advances without wrapping. -/
theorem advance_pc_toNat {s : State} (h : s.pc.toNat + 1 ≤ 4095) : (s.hostTurn.advance).pc.toNat = s.pc.toNat + 2 := by
  show (s.pc + 2).toNat = _
  bv_omega

theorem Inv.advance {s : State} (h : Inv s) (hpc : s.pc.toNat + 1 ≤ 4095) : Inv s.hostTurn.advance :=
  ⟨h.mem_wf, h.sp_le, by rw [advance_pc_toNat hpc]; omega, h.stack_le⟩

/-- Settles O58: each way to go on keeps the invariant; an instruction runs after a fetch within memory. -/
theorem stepKeepsInvariant : Obligations.StepKeepsInvariant := by
  intro s t hs h
  have hexec : ∀ i u, s.pc.toNat + 1 ≤ 4095 → exec i s.hostTurn.advance = .next u → Inv u := fun i u hpc hu => by
    have hadv := advance_pc_toNat hpc
    exact exec_inv hu (by omega) (by omega) (hs.advance hpc)
  cases step_to h with
  | reset rest => exact inv_of_reset_mem (resetMemory_wf _) s.params _
  | load img rest => exact Inv.loadImage (s := s.withHostIn rest) (hs.congr rfl rfl rfl rfl) img
  | decodeFault hpc => exact (hs.advance hpc).congr rfl rfl rfl rfl
  | instr i u hpc hu => exact (hexec i u hpc hu).congr rfl rfl rfl rfl
  | instrFault i _ hpc hu => exact hexec i t hpc hu
  | _ => exact hs.congr rfl rfl rfl rfl

end Sys2Proof
end

section
/-! The frame's bound (46_frame_sequencer.md R173): every charged instruction uses up some of the budget that is
left. -/

namespace Sys2Proof

open Machine

/-- The modelled time left in the frame. -/
def budgetLeft (s : State) : Nat := s.params.frameBudget - s.elapsed

/-- A running core has a step: a fault is recorded, or an instruction completes and is charged. -/
theorem Running.step_next {s : State} (h : Running s) : ∃ t, step s = .next t ∧
    (t.fault ≠ none ∨ ∃ i u, exec i s.hostTurn.advance = .next u ∧ u.fault = none ∧ t = charge i u) := by
  by_cases hpc : s.pc.toNat + 1 ≤ 4095
  · have hf := State.fetch_in hpc
    cases hd : decode (opcodeOfBytes (s.mem.read s.pc.toNat) (s.mem.read (s.pc.toNat + 1))) with
    | error r => exact ⟨_, h.step_decode_error hf hd, .inl nofun⟩
    | ok i =>
      obtain ⟨u, hu, hcharged, hfaulted⟩ := h.step_instr hf hd
      by_cases hn : u.fault = none
      · exact ⟨_, hcharged hn, .inr ⟨i, u, hu, hn, rfl⟩⟩
      · exact ⟨_, hfaulted hn, .inl hn⟩
  · exact ⟨_, h.step_fetch_fault (by omega), .inl nofun⟩

/-- A charged instruction ends the loop, or leaves the core running with less of the budget, the host's calls being
those that the core's turn left. -/
theorem charge_progress {i : Instr} {s u : State} (hexec : exec i s.hostTurn.advance = .next u) (hu : u.fault = none)
    (hcalls : ∀ c ∈ s.env.hostIn, c ≠ .rst) :
    (charge i u).phase = .ending ∨
      (Running (charge i u) ∧ (∀ c ∈ (charge i u).env.hostIn, c ≠ .rst) ∧ 1 ≤ budgetLeft (charge i u) ∧
        budgetLeft (charge i u) < budgetLeft s) := by
  obtain ⟨-, helapsed, hparams, -, -, hhost, -, -⟩ := sequencerStateUntouched i _ u hexec
  obtain ⟨c, hc, -, heq, hhost', -⟩ := costChargedAndLoopTested i u
  have hcalls' : ∀ c ∈ (charge i u).env.hostIn, c ≠ .rst := fun c hc =>
    hcalls c ((dropWait_suffix _).subset (by rw [hhost', hhost] at hc; exact hc))
  have hel : (charge i u).elapsed = s.elapsed + c := (congrArg State.elapsed heq).trans (congrArg (· + c) helapsed)
  have hleft : budgetLeft (charge i u) = s.params.frameBudget - (s.elapsed + c) := by
    rw [budgetLeft, hel, show (charge i u).params = s.params from hparams]
  by_cases hend : u.params.frameBudget ≤ u.elapsed + c
  · exact .inl ((congrArg State.phase heq).trans (if_pos hend))
  · have hbudget : s.elapsed + c < s.params.frameBudget := by
      rw [hparams, helapsed] at hend
      exact Nat.lt_of_not_le hend
    have hphase : (charge i u).phase = .running := (congrArg State.phase heq).trans (if_neg hend)
    refine .inr ⟨⟨hu, hphase, fun rest hr => ?_⟩, hcalls', by omega, by rw [hleft, budgetLeft]; omega⟩
    exact hcalls' .rst (by simp [hr]) rfl

/-- Settles O48, by induction on the budget that is left. -/
theorem frameEndsWithinBudget : Obligations.FrameEndsWithinBudget := by
  intro s hs hcalls
  show ∃ (k : Nat) (t : State), 1 ≤ k ∧ k ≤ max 1 (budgetLeft s) ∧ Host.Core.run core k s = .next t ∧ _
  induction hn : budgetLeft s using Nat.strong_induction_on generalizing s with
  | _ n ih =>
    obtain ⟨t, hstep, hfault | ⟨i, u, hexec, hu, rfl⟩⟩ := hs.step_next
    · exact ⟨1, t, le_rfl, le_max_left _ _, run_succ_of_step hstep 0, .inr hfault⟩
    · obtain hend | ⟨hrun, hcalls', hpos, hlt⟩ := charge_progress hexec hu hcalls
      · exact ⟨1, _, le_rfl, le_max_left _ _, run_succ_of_step hstep 0, .inl hend⟩
      · obtain ⟨k, t, -, hk, hkrun, ht⟩ := ih _ (hn ▸ hlt) (charge i u) hrun hcalls' rfl
        exact ⟨k + 1, t, by omega, by omega, (run_succ_of_step hstep k).trans hkrun, ht⟩

end Sys2Proof
end

section
/-! No running state comes back, its inputs included (44_timers_keys_random.md R154): the cost input moves on with every
charged instruction and never back, and the host's calls never grow; a core that has faulted stays so until a reset uses
up a call. -/

namespace Sys2Proof.Machine

/-- How far the cost input has moved on: the free durations drawn, less the given ones still to come. -/
def Env.costPos (e : Env) : Int := e.costDraws - e.costIn.length

theorem Env.drawCost_costPos (e : Env) (i : Instr) : (e.drawCost i).2.costPos = e.costPos + 1 := by
  have := e.drawCost_moves i
  simp only [Env.costPos]
  omega

end Sys2Proof.Machine

namespace Sys2Proof

open Machine

/-- The inputs of `e` or later ones: no call of the host and no cost comes back. -/
structure InputsAfter (e e' : Env) : Prop where
  /-- Calls are used up. -/
  calls : e'.hostIn.length ≤ e.hostIn.length
  /-- Costs are drawn. -/
  cost : e.costPos ≤ e'.costPos

theorem exec_hostIn {i : Instr} {s t : State} (h : exec i s = .next t) : t.env.hostIn = s.env.hostIn := by
  obtain ⟨-, -, -, -, -, hhost, -, -⟩ := sequencerStateUntouched i s t h
  exact hhost

theorem exec_costPos {i : Instr} {s t : State} (h : exec i s = .next t) : t.env.costPos = s.env.costPos := by
  obtain ⟨-, -, -, -, -, -, hcost, hdraws⟩ := sequencerStateUntouched i s t h
  rw [Env.costPos, Env.costPos, hcost, hdraws]

theorem loadImage_env (img : List Byte) (s : State) : (loadImage img s).env = s.env := by
  rcases loadImage_cases img s with ⟨-, h⟩ | ⟨-, h⟩ <;> simp [h]

theorem dropWait_length_le (l : List HostCall) : (dropWait l).length ≤ l.length := (dropWait_suffix l).length_le

/-- The inputs only move on. -/
theorem step_inputsAfter {s t : State} (h : step s = .next t) : InputsAfter s.env t.env := by
  have hturn := dropWait_length_le s.env.hostIn
  cases step_to h with
  | reset rest hcall => exact ⟨by simp [resetWith, hcall], le_rfl⟩
  | halted rest _ hcall => exact ⟨hcall.length_le, le_rfl⟩
  | load img rest hcall =>
    rw [loadImage_env]
    exact ⟨(suffix_of_dropWait hcall).length_le, le_rfl⟩
  | frameStart keys rest _ _ hcall => exact ⟨(suffix_of_dropWait hcall).length_le, le_rfl⟩
  | instr i u _ hexec =>
    refine ⟨?_, ?_⟩
    · show ((u.env.drawCost i).2.hostIn).length ≤ _
      rw [Env.drawCost_hostIn, exec_hostIn hexec]
      exact hturn
    · show _ ≤ (u.env.drawCost i).2.costPos
      rw [Env.drawCost_costPos, exec_costPos hexec]
      exact Int.le_add_one le_rfl
  | instrFault i _ _ hexec => exact ⟨by rw [exec_hostIn hexec]; exact hturn, by rw [exec_costPos hexec]; exact le_rfl⟩
  | _ => exact ⟨hturn, le_rfl⟩

/-- From a fault on, the core stays faulted until a reset uses up a call. -/
theorem step_of_faulted {s t : State} (hf : s.fault ≠ none) (h : step s = .next t) :
    t.fault ≠ none ∨ t.env.hostIn.length < s.env.hostIn.length := by
  rcases step_cases s with ⟨rest, hcall, he⟩ | ⟨-, he⟩
  · rw [he] at h
    cases h
    exact .inr (by simp [resetWith, hcall])
  · obtain ⟨f, hf'⟩ := Option.ne_none_iff_exists'.1 hf
    rw [he, coreStep_faulted (s := s.hostTurn) hf'] at h
    obtain ⟨rest, -, rfl⟩ := haltedStep_next h
    exact .inl hf

/-- Beyond every state in which the core takes its turn with the inputs `e`: a cost was drawn since, or a call was used
up since, or the core has faulted. -/
def Past (e : Env) (t : State) : Prop :=
  e.costPos < t.env.costPos ∨ t.env.hostIn.length < e.hostIn.length ∨
    (t.fault ≠ none ∧ t.env.hostIn.length ≤ e.hostIn.length)

theorem step_past {e : Env} {u v : State} (hu : Past e u) (h : step u = .next v) : Past e v := by
  obtain ⟨hcalls, hcost⟩ := step_inputsAfter h
  rcases hu with hu | hu | ⟨hf, hu⟩
  · exact .inl (hu.trans_le hcost)
  · exact .inr (.inl (hcalls.trans_lt hu))
  · rcases step_of_faulted hf h with hv | hv
    · exact .inr (.inr ⟨hv, hcalls.trans hu⟩)
    · exact .inr (.inl (hv.trans_le hu))

/-- One step of a running core leaves the inputs of its turn behind. -/
theorem Running.step_past {s t : State} (hs : Running s) (h : step s = .next t) : Past s.hostTurn.env t := by
  rw [hs.step_eq] at h
  rcases runInstr_cases exec s.hostTurn with ⟨-, he⟩ | ⟨op, r, -, -, -, he⟩ | ⟨op, i, -, -, -, he⟩ <;> rw [he] at h
  · cases h
    exact .inr (.inr ⟨nofun, le_rfl⟩)
  · cases h
    exact .inr (.inr ⟨nofun, le_rfl⟩)
  · obtain ⟨u, hexec, ⟨-, rfl⟩ | ⟨hf, rfl⟩⟩ := finishInstr_next h
    · refine .inl ?_
      show _ < (u.env.drawCost i).2.costPos
      rw [Env.drawCost_costPos, exec_costPos hexec]
      exact Int.lt_add_one_iff.2 le_rfl
    · exact .inr (.inr ⟨hf, (congrArg List.length (exec_hostIn hexec)).le⟩)

/-- A core past some inputs does not take its turn with them, unless it has faulted. -/
theorem Past.turn_ne {s t : State} (hs : s.fault = none) (h : Past s.hostTurn.env t) :
    t.hostTurn.advance ≠ s.hostTurn.advance := by
  intro heq
  have henv : t.hostTurn.env = s.hostTurn.env := (congrArg State.env heq :)
  have hfault : t.fault = s.fault := (congrArg State.fault heq :)
  have hcost : t.env.costPos = s.hostTurn.env.costPos := (congrArg Env.costPos henv :)
  have hcalls : (dropWait t.env.hostIn).length = s.hostTurn.env.hostIn.length :=
    congrArg (fun e : Env => e.hostIn.length) henv
  have hdrop := dropWait_length_le t.env.hostIn
  rcases h with h | h | ⟨hf, -⟩
  · omega
  · omega
  · exact hf (hfault.trans hs)

/-- Settles O59: after its first step the run is past the inputs of the first turn, and every step keeps it so. -/
theorem runningStateNeverRecurs : Obligations.RunningStateNeverRecurs := by
  intro k s t hs h
  obtain ⟨u, hu, hrun⟩ := run_succ_next h
  have hpast : Past s.hostTurn.env t := run_keeps (fun _ _ => step_past) (hs.step_past hu) hrun
  have hturn := hpast.turn_ne hs.unfaulted
  exact ⟨fun e => hturn (e ▸ rfl), hturn⟩

end Sys2Proof
end
